-- ==== Sys2Proof/Word.lean ====
section
/-! DEFINITION. The words of the machine (00_scope.md section 6, 10_state.md R12 to R20). Every quantity is unsigned. -/

namespace Sys2Proof

/-- A memory byte, a V register, a timer (R11, R12, R18). -/
abbrev Byte := BitVec 8

/-- An instruction word, I, PC, a stack entry (R14, R15, R17, R60). -/
abbrev Word := BitVec 16

/-- The index of a V register: always a 4-bit decode, so no other value exists (R12). -/
abbrev Reg := Fin 16

/-- Port `keys[15:0]`: bit k is 1 when hexadecimal key k is pressed (R6, R20). -/
abbrev Keys := BitVec 16

/-- One glyph of the font: five rows, row 0 first (20_memory.md R43). -/
abbrev Glyph := Vector Byte 5

/-- VF, the carry, no-borrow, shifted-out-bit and collision flag (R13). -/
abbrev VF : Reg := 15

end Sys2Proof
end

