-- ==== Sys2Proof/Syntax.lean ====
section
/-! DEFINITION. The 33 instructions of 30_encoding.md R64, one constructor per row of spec/opcode_table.json. Operands are
the fields of R61: x and y register indices, kk and nnn immediates, n a count. -/

namespace Sys2Proof

/-- An instruction with its operands. SHR and SHL carry the y field their word has, although the hardware ignores it
(41_alu.md R109, R111). -/
inductive Instr where
  | cls
  | ret
  | jp (nnn : BitVec 12)
  | call (nnn : BitVec 12)
  | seImm (x : Reg) (kk : Byte)
  | sneImm (x : Reg) (kk : Byte)
  | seReg (x y : Reg)
  | ldImm (x : Reg) (kk : Byte)
  | addImm (x : Reg) (kk : Byte)
  | ldReg (x y : Reg)
  | orReg (x y : Reg)
  | andReg (x y : Reg)
  | xorReg (x y : Reg)
  | addReg (x y : Reg)
  | sub (x y : Reg)
  | shr (x y : Reg)
  | subn (x y : Reg)
  | shl (x y : Reg)
  | sneReg (x y : Reg)
  | ldI (nnn : BitVec 12)
  | ldIV0 (nnn : BitVec 12)
  | rnd (x : Reg) (kk : Byte)
  | drw (x y : Reg) (n : BitVec 4)
  | skp (x : Reg)
  | sknp (x : Reg)
  | ldVxDt (x : Reg)
  | ldVxK (x : Reg)
  | ldDtVx (x : Reg)
  | ldStVx (x : Reg)
  | ldFVx (x : Reg)
  | ldBVx (x : Reg)
  | stRegs (x : Reg)
  | ldRegs (x : Reg)
deriving DecidableEq, Repr

end Sys2Proof
end

