-- ==== Sys2Proof/Decode.lean ====
section
/-! DEFINITION. The decoder and the encoder (30_encoding.md R60 to R67). Decoding reads no state and cannot fault (40_flow.md
R82); a word that matches no row is rejected by name. -/

namespace Sys2Proof

/-! ## Fields of a word (R61) -/

/-- n1 = w[15:12], the primary opcode. -/
def fieldOp (w : Word) : BitVec 4 := w.extractLsb' 12 4

/-- n2 = x = w[11:8]. -/
def fieldX (w : Word) : Reg := (w.extractLsb' 8 4).toFin

/-- n3 = y = w[7:4]. -/
def fieldY (w : Word) : Reg := (w.extractLsb' 4 4).toFin

/-- n4 = n = w[3:0]. -/
def fieldN (w : Word) : BitVec 4 := w.extractLsb' 0 4

/-- kk = w[7:0]. -/
def fieldKK (w : Word) : Byte := w.extractLsb' 0 8

/-- nnn = w[11:0]. -/
def fieldNNN (w : Word) : BitVec 12 := w.extractLsb' 0 12

/-! ## Decode (R64, R65) -/

/-- Top nibble 0: the whole word selects. -/
def decode0 (w : Word) : Option Instr :=
  if w = 0x00E0 then some .cls
  else if w = 0x00EE then some .ret
  else none

/-- Top nibbles 5 and 9: the bottom nibble must be 0 (90_conflicts.md C1). -/
def decodeN0 (w : Word) (i : Instr) : Option Instr :=
  if fieldN w = 0 then some i else none

/-- Top nibble 8: the bottom nibble selects. -/
def decode8 (x y : Reg) (n : BitVec 4) : Option Instr :=
  if n = 0x0 then some (.ldReg x y)
  else if n = 0x1 then some (.orReg x y)
  else if n = 0x2 then some (.andReg x y)
  else if n = 0x3 then some (.xorReg x y)
  else if n = 0x4 then some (.addReg x y)
  else if n = 0x5 then some (.sub x y)
  else if n = 0x6 then some (.shr x y)
  else if n = 0x7 then some (.subn x y)
  else if n = 0xE then some (.shl x y)
  else none

/-- Top nibble E: the low byte selects. -/
def decodeE (x : Reg) (kk : Byte) : Option Instr :=
  if kk = 0x9E then some (.skp x)
  else if kk = 0xA1 then some (.sknp x)
  else none

/-- Top nibble F: the low byte selects. -/
def decodeF (x : Reg) (kk : Byte) : Option Instr :=
  if kk = 0x07 then some (.ldVxDt x)
  else if kk = 0x0A then some (.ldVxK x)
  else if kk = 0x15 then some (.ldDtVx x)
  else if kk = 0x18 then some (.ldStVx x)
  else if kk = 0x29 then some (.ldFVx x)
  else if kk = 0x33 then some (.ldBVx x)
  else if kk = 0x55 then some (.stRegs x)
  else if kk = 0x65 then some (.ldRegs x)
  else none

/-- The instruction a word selects, or `none` for an unmatched word: the opcode map of R65. -/
def decodeWord (w : Word) : Option Instr :=
  match (fieldOp w).toNat with
  | 0x0 => decode0 w
  | 0x1 => some (.jp (fieldNNN w))
  | 0x2 => some (.call (fieldNNN w))
  | 0x3 => some (.seImm (fieldX w) (fieldKK w))
  | 0x4 => some (.sneImm (fieldX w) (fieldKK w))
  | 0x5 => decodeN0 w (.seReg (fieldX w) (fieldY w))
  | 0x6 => some (.ldImm (fieldX w) (fieldKK w))
  | 0x7 => some (.addImm (fieldX w) (fieldKK w))
  | 0x8 => decode8 (fieldX w) (fieldY w) (fieldN w)
  | 0x9 => decodeN0 w (.sneReg (fieldX w) (fieldY w))
  | 0xA => some (.ldI (fieldNNN w))
  | 0xB => some (.ldIV0 (fieldNNN w))
  | 0xC => some (.rnd (fieldX w) (fieldKK w))
  | 0xD => some (.drw (fieldX w) (fieldY w) (fieldN w))
  | 0xE => decodeE (fieldX w) (fieldKK w)
  | 0xF => decodeF (fieldX w) (fieldKK w)
  | _ => none   -- no other nibble exists

/-- Why bytes are no instruction. -/
inductive DecodeError where
  /-- Fewer than two bytes: every instruction has two (R60). -/
  | truncated
  /-- The word matches none of the 33 rows (R66). -/
  | unmatched (w : Word)
deriving DecidableEq, Repr

/-- The 16-bit word of two bytes in memory, the byte at the lower address in bits 15:8 (20_memory.md R42). -/
def wordOfBytes (hi lo : Byte) : Word := hi ++ lo

/-- Decode the instruction at the front of a byte sequence; total, rejecting by name. -/
def decode : List Byte → Except DecodeError (Instr × List Byte)
  | hi :: lo :: rest =>
    match decodeWord (wordOfBytes hi lo) with
    | some i => .ok (i, rest)
    | none => .error (.unmatched (wordOfBytes hi lo))
  | _ => .error .truncated

/-! ## Encode (R62, R64) -/

/-- A register index as its 4-bit field. -/
def regBits (r : Reg) : BitVec 4 := BitVec.ofFin r

/-- A nibble in bits 15:12 above twelve bits. -/
def joinWord (a : BitVec 4) (b : BitVec 12) : Word := a ++ b

/-- A nibble above a byte. -/
def joinField (a : BitVec 4) (b : Byte) : BitVec 12 := a ++ b

/-- A nibble above a nibble. -/
def joinByte (a b : BitVec 4) : Byte := a ++ b

/-- Format NNN. -/
def encNNN (op : BitVec 4) (nnn : BitVec 12) : Word := joinWord op nnn

/-- Format XKK, and format X with its fixed low byte. -/
def encXKK (op : BitVec 4) (x : Reg) (kk : Byte) : Word := joinWord op (joinField (regBits x) kk)

/-- Format XYN, and format XY with its fixed bottom nibble. -/
def encXYN (op : BitVec 4) (x y : Reg) (n : BitVec 4) : Word :=
  joinWord op (joinField (regBits x) (joinByte (regBits y) n))

/-- The word of an instruction, from the encoding column of R64. -/
def encode : Instr → Word
  | .cls => 0x00E0
  | .ret => 0x00EE
  | .jp nnn => encNNN 0x1 nnn
  | .call nnn => encNNN 0x2 nnn
  | .seImm x kk => encXKK 0x3 x kk
  | .sneImm x kk => encXKK 0x4 x kk
  | .seReg x y => encXYN 0x5 x y 0x0
  | .ldImm x kk => encXKK 0x6 x kk
  | .addImm x kk => encXKK 0x7 x kk
  | .ldReg x y => encXYN 0x8 x y 0x0
  | .orReg x y => encXYN 0x8 x y 0x1
  | .andReg x y => encXYN 0x8 x y 0x2
  | .xorReg x y => encXYN 0x8 x y 0x3
  | .addReg x y => encXYN 0x8 x y 0x4
  | .sub x y => encXYN 0x8 x y 0x5
  | .shr x y => encXYN 0x8 x y 0x6
  | .subn x y => encXYN 0x8 x y 0x7
  | .shl x y => encXYN 0x8 x y 0xE
  | .sneReg x y => encXYN 0x9 x y 0x0
  | .ldI nnn => encNNN 0xA nnn
  | .ldIV0 nnn => encNNN 0xB nnn
  | .rnd x kk => encXKK 0xC x kk
  | .drw x y n => encXYN 0xD x y n
  | .skp x => encXKK 0xE x 0x9E
  | .sknp x => encXKK 0xE x 0xA1
  | .ldVxDt x => encXKK 0xF x 0x07
  | .ldVxK x => encXKK 0xF x 0x0A
  | .ldDtVx x => encXKK 0xF x 0x15
  | .ldStVx x => encXKK 0xF x 0x18
  | .ldFVx x => encXKK 0xF x 0x29
  | .ldBVx x => encXKK 0xF x 0x33
  | .stRegs x => encXKK 0xF x 0x55
  | .ldRegs x => encXKK 0xF x 0x65

/-- The two bytes of a word as they stand in memory, high byte at the lower address (R42). -/
def bytesOfWord (w : Word) : List Byte := [w.extractLsb' 8 8, w.extractLsb' 0 8]

/-- The bytes of an instruction as they stand in memory. -/
def encodeBytes (i : Instr) : List Byte := bytesOfWord (encode i)

/-! ## The opcode table (R64) -/

/-- A row of the opcode table: a word `w` selects it when `w AND mask = value`. -/
structure OpcodeRow where
  mnemonic : String
  mask : Word
  value : Word
deriving DecidableEq, Repr

/-- The table's first half, in its order. -/
def opcodeRowsLow : List OpcodeRow :=
  [⟨"CLS", 0xFFFF, 0x00E0⟩, ⟨"RET", 0xFFFF, 0x00EE⟩, ⟨"JP", 0xF000, 0x1000⟩, ⟨"CALL", 0xF000, 0x2000⟩,
   ⟨"SE_IMM", 0xF000, 0x3000⟩, ⟨"SNE_IMM", 0xF000, 0x4000⟩, ⟨"SE_REG", 0xF00F, 0x5000⟩,
   ⟨"LD_IMM", 0xF000, 0x6000⟩, ⟨"ADD_IMM", 0xF000, 0x7000⟩, ⟨"LD_REG", 0xF00F, 0x8000⟩,
   ⟨"OR", 0xF00F, 0x8001⟩, ⟨"AND", 0xF00F, 0x8002⟩, ⟨"XOR", 0xF00F, 0x8003⟩, ⟨"ADD_REG", 0xF00F, 0x8004⟩,
   ⟨"SUB", 0xF00F, 0x8005⟩, ⟨"SHR", 0xF00F, 0x8006⟩, ⟨"SUBN", 0xF00F, 0x8007⟩, ⟨"SHL", 0xF00F, 0x800E⟩]

/-- The table's second half, in its order. -/
def opcodeRowsHigh : List OpcodeRow :=
  [⟨"SNE_REG", 0xF00F, 0x9000⟩, ⟨"LD_I", 0xF000, 0xA000⟩, ⟨"LD_I_V0", 0xF000, 0xB000⟩,
   ⟨"RND", 0xF000, 0xC000⟩, ⟨"DRW", 0xF000, 0xD000⟩, ⟨"SKP", 0xF0FF, 0xE09E⟩, ⟨"SKNP", 0xF0FF, 0xE0A1⟩,
   ⟨"LD_VX_DT", 0xF0FF, 0xF007⟩, ⟨"LD_VX_K", 0xF0FF, 0xF00A⟩, ⟨"LD_DT_VX", 0xF0FF, 0xF015⟩,
   ⟨"LD_ST_VX", 0xF0FF, 0xF018⟩, ⟨"LD_F_VX", 0xF0FF, 0xF029⟩, ⟨"LD_B_VX", 0xF0FF, 0xF033⟩,
   ⟨"ST_REGS", 0xF0FF, 0xF055⟩, ⟨"LD_REGS", 0xF0FF, 0xF065⟩]

/-- The complete table: 33 rows. -/
def opcodeTable : List OpcodeRow := opcodeRowsLow ++ opcodeRowsHigh

/-- A word selects a row (R64). -/
def OpcodeRow.matchesWord (row : OpcodeRow) (w : Word) : Bool := w &&& row.mask == row.value

/-- The table's name of an instruction: the row it stands for. -/
def mnemonicOf : Instr → String
  | .cls => "CLS"
  | .ret => "RET"
  | .jp _ => "JP"
  | .call _ => "CALL"
  | .seImm _ _ => "SE_IMM"
  | .sneImm _ _ => "SNE_IMM"
  | .seReg _ _ => "SE_REG"
  | .ldImm _ _ => "LD_IMM"
  | .addImm _ _ => "ADD_IMM"
  | .ldReg _ _ => "LD_REG"
  | .orReg _ _ => "OR"
  | .andReg _ _ => "AND"
  | .xorReg _ _ => "XOR"
  | .addReg _ _ => "ADD_REG"
  | .sub _ _ => "SUB"
  | .shr _ _ => "SHR"
  | .subn _ _ => "SUBN"
  | .shl _ _ => "SHL"
  | .sneReg _ _ => "SNE_REG"
  | .ldI _ => "LD_I"
  | .ldIV0 _ => "LD_I_V0"
  | .rnd _ _ => "RND"
  | .drw _ _ _ => "DRW"
  | .skp _ => "SKP"
  | .sknp _ => "SKNP"
  | .ldVxDt _ => "LD_VX_DT"
  | .ldVxK _ => "LD_VX_K"
  | .ldDtVx _ => "LD_DT_VX"
  | .ldStVx _ => "LD_ST_VX"
  | .ldFVx _ => "LD_F_VX"
  | .ldBVx _ => "LD_B_VX"
  | .stRegs _ => "ST_REGS"
  | .ldRegs _ => "LD_REGS"

/-! ## The host's view of the decoder -/

/-- The low `nbits` bits of `w` as the bytes of one instruction: `w`'s bit 0 is bit 0 of the one instruction word, which
stands in memory high byte first. Every bit from `nbits` on is 0. -/
def tableBytes (nbits w : Nat) : List Byte := bytesOfWord (BitVec.ofNat 16 (w % 2 ^ nbits))

/-- The instruction the decoder reads from a word numbered as spec/opcode_table.json numbers it. -/
def decodeTableWord (nbits w : Nat) : Option Instr :=
  match decode (tableBytes nbits w) with
  | .ok (i, _) => some i
  | .error _ => none

end Sys2Proof
end

