-- ==== Sys2Proof/Config.lean ====
section
/-! DEFINITION. What is fixed for one machine: the sizes the source gives, the parameters it leaves open (00_scope.md R5),
and the free values of the inputs. -/

namespace Sys2Proof

/-- MEM_SIZE (R5, R11). -/
def memSize : Nat := 4096

/-- PROGRAM_BASE (R5, R41). -/
def programBase : Nat := 0x200

/-- The last address a two-byte fetch can start at (40_flow.md R81). -/
def lastFetch : Nat := 0xFFE

/-- ROM_MAX = 4096 - 0x200 (R5, 70_reset_and_hazards.md R202). -/
def romMax : Nat := 3584

/-- The number of glyph bytes, 16 x 5 (20_memory.md R43). -/
def fontBytes : Nat := 80

/-- TIMER_HZ: the fixed rate of the timer clock (R5). -/
def timerHz : Nat := 60

/-- The parameters left open (R5; 92_eei_decisions.md section 2). A machine holds one `Config` and no step changes it
(log 1). -/
structure Config where
  /-- INSTR_HZ; only the reference schedule uses it (60_exceptions.md R185). -/
  instrHz : Nat
  /-- STRICT_DECODE (30_encoding.md R67). -/
  strictDecode : Bool
  /-- FONT_BASE (20_memory.md R43, D2). -/
  fontBase : Nat
  /-- FONT_GLYPHS (20_memory.md R43, D3). -/
  fontGlyphs : Vector Glyph 16
deriving DecidableEq, Repr

/-- The keyboard port in the n-th instruction cycle after the environment's list of events has run out: any value
(93_implementation_defined.md U5). Free: it has no body, so nothing can be proved of its value (log 4). -/
opaque freeKeys : Nat → Keys

/-- The random byte on port rand in that cycle: any value (41_alu.md R112, U4). Free, as `freeKeys` (log 4). -/
opaque freeRand : Nat → Byte

end Sys2Proof
end

