-- ==== Sys2Proof/Machine/Font.lean ====
section
/-! DEFINITION. The font: the default glyphs, the font table and what a byte of memory holds right after reset (20_memory.md
R43, 10_state.md R21, R27). -/

namespace Sys2Proof.Machine

/-- One glyph from its five rows. -/
def glyphOf (a b c d e : Byte) : Glyph := ⟨#[a, b, c, d, e], rfl⟩

/-- The default of FONT_GLYPHS, the table of R43 (the conventional hex font: general knowledge in the spec, log 10). -/
def defaultGlyphs : Vector Glyph 16 :=
  ⟨#[glyphOf 0xF0 0x90 0x90 0x90 0xF0, glyphOf 0x20 0x60 0x20 0x20 0x70,
     glyphOf 0xF0 0x10 0xF0 0x80 0xF0, glyphOf 0xF0 0x10 0xF0 0x10 0xF0,
     glyphOf 0x90 0x90 0xF0 0x10 0x10, glyphOf 0xF0 0x80 0xF0 0x10 0xF0,
     glyphOf 0xF0 0x80 0xF0 0x90 0xF0, glyphOf 0xF0 0x10 0x20 0x40 0x40,
     glyphOf 0xF0 0x90 0xF0 0x90 0xF0, glyphOf 0xF0 0x90 0xF0 0x10 0xF0,
     glyphOf 0xF0 0x90 0xF0 0x90 0x90, glyphOf 0xE0 0x90 0xE0 0x90 0xE0,
     glyphOf 0xF0 0x80 0x80 0x80 0xF0, glyphOf 0xE0 0x90 0x90 0x90 0xE0,
     glyphOf 0xF0 0x80 0xF0 0x80 0xF0, glyphOf 0xF0 0x80 0xF0 0x80 0x80], rfl⟩

/-- The parameters at their defaults (00_scope.md R5): 500 Hz (the examples' rate, log 1), permissive decoding, font at 0. -/
def defaultConfig : Config :=
  { instrHz := 500, strictDecode := false, fontBase := 0x000, fontGlyphs := defaultGlyphs }

/-- An address holds a glyph byte: FONT_BASE .. FONT_BASE+79 (R43, R47). -/
def inFont (cfg : Config) (a : Nat) : Bool :=
  decide (cfg.fontBase ≤ a) && decide (a < cfg.fontBase + fontBytes)

/-- Row `r` of glyph `d` (R43). -/
def glyphByte (cfg : Config) (d : Fin 16) (r : Fin 5) : Byte := cfg.fontGlyphs[d][r]

/-- fontTable[d] = FONT_BASE + 5*d (10_state.md R21). -/
def fontTable (cfg : Config) (d : Fin 16) : Word := BitVec.ofNat 16 (cfg.fontBase + 5 * d.val)

/-- What an address reads as right after a reset with an empty ROM, and so what an address that memory does not list reads
as: the glyph byte inside the font, 0x00 elsewhere (10_state.md R27; log 10). -/
def resetByte (cfg : Config) (a : Nat) : Byte :=
  if h : cfg.fontBase ≤ a ∧ a < cfg.fontBase + 80 then
    glyphByte cfg ⟨(a - cfg.fontBase) / 5, by omega⟩ ⟨(a - cfg.fontBase) % 5, by omega⟩
  else 0

end Sys2Proof.Machine
end

