-- ==== Sys2Proof/Machine/State.lean ====
section
/-! DEFINITION. The state of the machine (10_state.md R10) and its value after reset (R27). Plain data. -/

namespace Sys2Proof.Machine

/-- `mem`: (address, byte) pairs in the canonical form of `Memory.wf` (Machine/Ops.lean). An address that is not listed reads
as `resetByte` says. -/
abbrev Memory := List Host.Cell

/-- `disp[row][col]`: 32 rows of 64 one-bit cells (R19). -/
abbrev Display := Vector (Vector Bool 64) 32

/-- The faults of 60_exceptions.md R170, each with the value (`info`) it records. Taking one is `Machine.raise`. -/
inductive FaultCause where
  /-- 2nnn with sixteen entries in use; the PC of the call. -/
  | stackOverflow (pc : Word)
  /-- 00EE with no entry in use; the PC of the return. -/
  | stackUnderflow (pc : Word)
  /-- A fetch from outside 0x200..0xFFE; the PC. -/
  | fetchOutOfRange (pc : Word)
  /-- A data access past 0xFFF; its last address (R46, R47, R170) and its first address past 0xFFF (decision D7); log 26. -/
  | memOutOfRange (last first : Nat)
  /-- A store that touches a glyph byte; the first such address. -/
  | fontWrite (addr : Nat)
  /-- Ex9E or ExA1 with Vx > 15; Vx. -/
  | keyIndexOutOfRange (v : Byte)
  /-- Fx29 with Vx > 15; Vx. -/
  | fontIndexOutOfRange (v : Byte)
  /-- An unmatched word under strict decoding; the word. -/
  | unimplementedOpcode (w : Word)
  /-- Reset with a ROM of more than 3584 bytes; its length. -/
  | romTooLarge (len : Nat)
deriving DecidableEq, Repr

/-- What the environment does next: one fire of one of the event ports of 00_scope.md R6. Each is one atomic step. -/
inductive Event where
  /-- `reset`, with the ROM image on port rom (70_reset_and_hazards.md R200). -/
  | reset (rom : List Byte)
  /-- `instr_clk`, with what ports keys and rand hold in that cycle (40_flow.md R80). -/
  | instrClk (keys : Keys) (rand : Byte)
  /-- `timer_clk` (60_exceptions.md R181). -/
  | timerClk
deriving DecidableEq, Repr

/-- The reasons the MODEL could stop with a fault: none. Every fault the spec gives has an entry (60_exceptions.md R172) and is
taken as a next state (log 8), so this type has no constructor. -/
inductive Fault where
deriving DecidableEq, Repr

/-- The reasons the model has no meaning to give. -/
inductive Refusal where
  /-- An arm of `exec` whose instruction has no meaning yet. Safe: nothing is claimed of it. No arm answers it now. -/
  | notModelled (mnemonic : String)
deriving DecidableEq, Repr

/-- Every piece of state. The first block is the spec's MachineState (R10), the second the two sampled input ports, the third
the parameters (R5, log 1), the last the model's own fields. -/
structure State where
  /-- 4096 bytes (R11). -/
  mem : Memory
  /-- V0..VF (R12). -/
  V : Vector Byte 16
  /-- The index register (R14). -/
  I : Word
  /-- The program counter (R15). -/
  PC : Word
  /-- How many stack entries are in use, 0..16 (R17; log 9). -/
  SP : Fin 17
  /-- The sixteen return addresses (R17). -/
  stack : Vector Word 16
  /-- The delay timer (R18). -/
  DT : Byte
  /-- The sound timer (R18). -/
  ST : Byte
  /-- The display (R19). -/
  disp : Display
  /-- 1 after a fatal error (R22). -/
  halted : Bool
  /-- The fault code, 0 when none (R22, 60_exceptions.md R170). -/
  fault : BitVec 4
  /-- The keyboard as sampled for the latest cycle (R20). -/
  keys : Keys
  /-- Port rand in the latest cycle (00_scope.md R6). -/
  rand : Byte
  /-- The parameters of this machine. -/
  cfg : Config
  /-- The environment's coming events, the next one first (log 2). -/
  inputs : List Event
  /-- `tick_acc` of the reference schedule (60_exceptions.md R185; log 3). -/
  tickAcc : Nat
  /-- Which free values of the input ports come next (log 4). -/
  drawIndex : Nat
  /-- The fault taken, with its info (60_exceptions.md R170, R172; log 8). -/
  faultRecord : Option FaultCause
deriving DecidableEq, Repr

/-- The machine right after reset with an empty ROM and the default parameters (10_state.md R27; log 5, log 6). -/
def State.reset : State :=
  { mem := []
    V := Vector.replicate 16 0
    I := 0
    PC := 0x200
    SP := 0
    stack := Vector.replicate 16 0
    DT := 0
    ST := 0
    disp := Vector.replicate 32 (Vector.replicate 64 false)
    halted := false
    fault := 0
    keys := 0
    rand := 0
    cfg := defaultConfig
    inputs := []
    tickAcc := 0
    drawIndex := 0
    faultRecord := none }

end Sys2Proof.Machine
end

