-- ==== Sys2Proof/Machine/Ops.lean ====
section
/-! DEFINITION. The named operations over registers, the program counter, the call stack and memory, and the taking of a
fault. Every meaning is written over these. -/

namespace Sys2Proof.Machine

/-- What one step answers. -/
abbrev Result := Host.Outcome State Fault Refusal

/-! ## Taking a fault (60_exceptions.md R170 to R175) -/

/-- The fault's code (R170). -/
def faultCode : FaultCause → BitVec 4
  | .stackOverflow _ => 1
  | .stackUnderflow _ => 2
  | .fetchOutOfRange _ => 3
  | .memOutOfRange _ _ => 4
  | .fontWrite _ => 5
  | .keyIndexOutOfRange _ => 6
  | .fontIndexOutOfRange _ => 7
  | .unimplementedOpcode _ => 8
  | .romTooLarge _ => 9

/-- Fault entry, `raise F(info)` (R172): `halted <- 1; fault <- code(F)`, every other piece of the machine as it is in `s`, the
state before the cycle (R171). `info` goes to the model's fault record only. There is no return from a fault: the only way out
is reset (R173, R175). -/
def raise (c : FaultCause) (s : State) : Result :=
  .next { s with halted := true, fault := faultCode c, faultRecord := some c }

/-- Go on with the value of a check, or take the fault it found; the fault is taken in the state the check was made in. -/
def orRaise {α : Type} (s : State) (r : Except FaultCause α) (k : α → Result) : Result :=
  match r with
  | .ok a => k a
  | .error c => raise c s

/-! ## Registers -/

/-- `V[x]` (10_state.md R12). -/
def State.v (s : State) (x : Reg) : Byte := s.V[x]

/-- `V[x] <- b`; no register is hardwired (R12). -/
def State.setV (s : State) (x : Reg) (b : Byte) : State := { s with V := s.V.set x b }

/-- `I <- w` (R14). -/
def State.setI (s : State) (w : Word) : State := { s with I := w }

/-- `DT <- b` (R18). -/
def State.setDT (s : State) (b : Byte) : State := { s with DT := b }

/-- `ST <- b` (R18). -/
def State.setST (s : State) (b : Byte) : State := { s with ST := b }

/-- `disp <- d` (R19). -/
def State.setDisp (s : State) (d : Display) : State := { s with disp := d }

/-- `mem <- m` (R11). -/
def State.setMem (s : State) (m : Memory) : State := { s with mem := m }

/-- The sampling of the input ports at the start of a cycle (R20, 60_exceptions.md R187). -/
def State.sample (s : State) (keys : Keys) (rand : Byte) : State := { s with keys := keys, rand := rand }

/-- `V[k], V[k+1], ... <- bs`, lowest index first (42_index_memory.md R125). Entries past VF would be dropped; no access has
any. -/
def loadFrom (V : Vector Byte 16) : Nat → List Byte → Vector Byte 16
  | _, [] => V
  | k, b :: bs => loadFrom (V.setIfInBounds k b) (k + 1) bs

/-- The registers `V0 .. Vx` as a byte sequence (42_index_memory.md R124). -/
def regsThrough (s : State) (x : Reg) : List Byte := s.V.toList.take (x.val + 1)

/-! ## The program counter (40_flow.md R83, R91) -/

/-- `PC <- w`. -/
def State.setPC (s : State) (w : Word) : State := { s with PC := w }

/-- The default advance, `PC <- PC + 2` (R83). -/
def State.advance (s : State) : State := s.setPC (s.PC + 2)

/-- Skip the next instruction or not: `PC + 4` or `PC + 2` (R91). -/
def State.skipIf (s : State) (c : Bool) : State := s.setPC (if c then s.PC + 4 else s.PC + 2)

/-! ## The call stack (10_state.md R17; log 9) -/

/-- Push a return address; with sixteen entries in use it overflows (40_flow.md R86). -/
def push (s : State) (ret : Word) : Except FaultCause State :=
  if h : s.SP.val < 16 then
    .ok { s with stack := s.stack.set s.SP.val ret, SP := ⟨s.SP.val + 1, by omega⟩ }
  else .error (.stackOverflow s.PC)

/-- Pop the top entry, which keeps its value in `stack`; an empty stack underflows (40_flow.md R84). -/
def pop (s : State) : Except FaultCause (Word × State) :=
  if h : 0 < s.SP.val then
    .ok (s.stack[s.SP.val - 1], { s with SP := ⟨s.SP.val - 1, by omega⟩ })
  else .error (.stackUnderflow s.PC)

/-! ## Memory: one byte -/

/-- The byte at an address. -/
def Memory.read (cfg : Config) : Memory → Nat → Byte
  | [], a => resetByte cfg a
  | (k, b) :: rest, a => if a = k then b else Memory.read cfg rest a

/-- List `b` at address `a`, keeping the addresses rising. -/
def Memory.insert : Memory → Nat → Byte → Memory
  | [], a, b => [(a, b)]
  | (k, c) :: rest, a, b =>
    if a < k then (a, b) :: (k, c) :: rest
    else if a = k then (a, b) :: rest
    else (k, c) :: Memory.insert rest a b

/-- Take address `a` off the list. -/
def Memory.erase : Memory → Nat → Memory
  | [], _ => []
  | (k, c) :: rest, a => if a = k then Memory.erase rest a else (k, c) :: Memory.erase rest a

/-- Store one byte; a byte equal to what an unlisted address reads as is not listed. -/
def Memory.write (cfg : Config) (m : Memory) (a : Nat) (b : Byte) : Memory :=
  if b = resetByte cfg a then m.erase a else m.insert a b

/-- The canonical form: addresses strictly rising and below 4096, and no entry equal to what an unlisted address reads as. -/
def Memory.wf (cfg : Config) : Memory → Bool
  | [] => true
  | (a, b) :: rest =>
    decide (a < memSize) && b != resetByte cfg a && rest.all (fun c => decide (a < c.1)) && Memory.wf cfg rest

/-- `mem[a]` of the state. -/
def State.readByte (s : State) (a : Nat) : Byte := s.mem.read s.cfg a

/-! ## Memory: accesses (20_memory.md R45 to R47) -/

/-- The bytes at `a, a+1, ...`, lowest address first. -/
def readBytes (s : State) : Nat → Nat → List Byte
  | _, 0 => []
  | a, n + 1 => s.readByte a :: readBytes s (a + 1) n

/-- Store bytes at `a, a+1, ...`, lowest address first. -/
def writeBytes (cfg : Config) : Memory → Nat → List Byte → Memory
  | m, _, [] => m
  | m, a, b :: bs => writeBytes cfg (m.write cfg a b) (a + 1) bs

/-- The first address of `a .. a+n-1` that holds a glyph byte (R47). -/
def firstFontAddr (cfg : Config) : Nat → Nat → Option Nat
  | _, 0 => none
  | a, n + 1 => if inFont cfg a then some a else firstFontAddr cfg (a + 1) n

/-- MemOutOfRange of an access of `n` bytes at `a` that ends past 0xFFF. The spec names two values for its `info`: the last
address of the access (R46, R47, R170) and the first offending one (decision D7). DESIGN CHOICE (log 26): both are recorded. -/
def outOfRange (a n : Nat) : FaultCause := .memOutOfRange (a + n - 1) (max a memSize)

/-- `MemRead(addr, n)` (R46). -/
def memRead (s : State) (a n : Nat) : Except FaultCause (List Byte) :=
  if n = 0 then .ok []
  else if 0xFFF < a + n - 1 then .error (outOfRange a n)
  else .ok (readBytes s a n)

/-- `MemWrite(addr, n, v)` with n the length of v, n >= 1 (R47): the range is checked, then the glyph bytes, then every byte
is written. -/
def memWrite (s : State) (a : Nat) (bs : List Byte) : Except FaultCause State :=
  if 0xFFF < a + bs.length - 1 then .error (outOfRange a bs.length)
  else match firstFontAddr s.cfg a bs.length with
    | some f => .error (.fontWrite f)
    | none => .ok (s.setMem (writeBytes s.cfg s.mem a bs))

/-- The address of element 0 of an access through I: `ea = I + k`, a natural, never wrapped (R45). -/
def indexAddr (s : State) : Nat := s.I.toNat

end Sys2Proof.Machine
end

