-- ==== Sys2Proof/Machine/Flags.lean ====
section
/-! DEFINITION. The flag computations (10_state.md R13; 41_alu.md R100, R107 to R111) and the two orders of writing a result
and its flag. The collision flag of Dxyn is in Machine/Display.lean. -/

namespace Sys2Proof.Machine

/-- A flag as VF holds it: 0 or 1 (R13). -/
def flagByte (c : Bool) : Byte := if c then 1 else 0

/-- Carry of 8xy4: the 9-bit sum exceeds 255 (R107). -/
def carryOut (a b : Byte) : Bool := decide (a.toNat + b.toNat > 255)

/-- No borrow of `a - b`: the strict comparison the source writes, so equal operands give 0 (R108, R110). -/
def noBorrow (a b : Byte) : Bool := decide (a.toNat > b.toNat)

/-- The bit 8xy6 shifts out (R109). -/
def lowBit (a : Byte) : Bool := a.getLsbD 0

/-- The bit 8xyE shifts out (R111). -/
def highBit (a : Byte) : Bool := a.getLsbD 7

/-- Result first, flag last: with x = 0xF the flag stands (R100, 8xy4). -/
def writeResultThenFlag (s : State) (x : Reg) (res : Byte) (c : Bool) : State :=
  (s.setV x res).setV VF (flagByte c)

/-- Flag first, result last: with x = 0xF the result stands (R100, 8xy5 8xy6 8xy7 8xyE). -/
def writeFlagThenResult (s : State) (x : Reg) (res : Byte) (c : Bool) : State :=
  (s.setV VF (flagByte c)).setV x res

end Sys2Proof.Machine
end

