-- ==== Sys2Proof/Machine/Alu.lean ====
section
/-! DEFINITION. Register load, arithmetic, logic, shift and random: 6xkk, 7xkk, 8xy0 to 8xy7, 8xyE, Cxkk (41_alu.md R100 to
R113). All end with the default advance and none can fault. -/

namespace Sys2Proof.Machine

/-- 6xkk (R101). -/
def execLdImm (x : Reg) (kk : Byte) (s : State) : Result := .next (s.setV x kk).advance

/-- 7xkk (R102): wraps modulo 256, no flag. -/
def execAddImm (x : Reg) (kk : Byte) (s : State) : Result := .next (s.setV x (s.v x + kk)).advance

/-- 8xy0 (R103). -/
def execLdReg (x y : Reg) (s : State) : Result := .next (s.setV x (s.v y)).advance

/-- 8xy1 (R104): VF unchanged (D29). -/
def execOrReg (x y : Reg) (s : State) : Result := .next (s.setV x (s.v x ||| s.v y)).advance

/-- 8xy2 (R105): VF unchanged (D29). -/
def execAndReg (x y : Reg) (s : State) : Result := .next (s.setV x (s.v x &&& s.v y)).advance

/-- 8xy3 (R106): VF unchanged (D29). -/
def execXorReg (x y : Reg) (s : State) : Result := .next (s.setV x (s.v x ^^^ s.v y)).advance

/-- 8xy4 (R107). -/
def execAddReg (x y : Reg) (s : State) : Result :=
  .next (writeResultThenFlag s x (s.v x + s.v y) (carryOut (s.v x) (s.v y))).advance

/-- 8xy5 (R108). -/
def execSub (x y : Reg) (s : State) : Result :=
  .next (writeFlagThenResult s x (s.v x - s.v y) (noBorrow (s.v x) (s.v y))).advance

/-- 8xy6 (R109): Vx itself is shifted; the y field is ignored. -/
def execShr (x _y : Reg) (s : State) : Result :=
  .next (writeFlagThenResult s x (s.v x >>> 1) (lowBit (s.v x))).advance

/-- 8xy7 (R110). -/
def execSubn (x y : Reg) (s : State) : Result :=
  .next (writeFlagThenResult s x (s.v y - s.v x) (noBorrow (s.v y) (s.v x))).advance

/-- 8xyE (R111): Vx itself is shifted; the y field is ignored. -/
def execShl (x _y : Reg) (s : State) : Result :=
  .next (writeFlagThenResult s x (s.v x <<< 1) (highBit (s.v x))).advance

/-- Cxkk (R112): the byte on port rand in this cycle AND kk. -/
def execRnd (x : Reg) (kk : Byte) (s : State) : Result := .next (s.setV x (s.rand &&& kk)).advance

end Sys2Proof.Machine
end

