-- ==== Sys2Proof/Machine/Display.lean ====
section
/-! DEFINITION. The display: 00E0 and Dxyn, the sprite XOR draw with its collision detector (43_display.md R140 to R144). -/

namespace Sys2Proof.Machine

/-- `disp[r][c]` (R140). -/
def pixel (d : Display) (r : Fin 32) (c : Fin 64) : Bool := d[r][c]

/-- `disp[r][c] <- b`. -/
def setPixel (d : Display) (r : Fin 32) (c : Fin 64) (b : Bool) : Display := d.set r (d[r].set c b)

/-- The clear display (R141). -/
def clearDisplay : Display := Vector.replicate 32 (Vector.replicate 64 false)

/-- The row a coordinate selects, reduced modulo 32 (R140). -/
def wrapRow (n : Nat) : Fin 32 := ⟨n % 32, Nat.mod_lt _ (by decide)⟩

/-- The column a coordinate selects, reduced modulo 64 (R140). -/
def wrapCol (n : Nat) : Fin 64 := ⟨n % 64, Nat.mod_lt _ (by decide)⟩

/-- A draw under way: the display so far, and whether some cell has gone from 1 to 0. -/
structure Draw where
  disp : Display
  collision : Bool
deriving DecidableEq, Repr

/-- The loop body of R142: one sprite bit into one cell. -/
def drawBit (d : Draw) (r : Fin 32) (c : Fin 64) (bit : Bool) : Draw :=
  { disp := setPixel d.disp r c (pixel d.disp r c != bit)
    collision := d.collision || (pixel d.disp r c && bit) }

/-- One sprite row: column 0 is its most significant bit (R142). -/
def drawRow (x0 : Nat) (r : Fin 32) (sprite : Byte) (d : Draw) : Draw :=
  (List.range 8).foldl (fun d column => drawBit d r (wrapCol (x0 + column)) (sprite.getLsbD (7 - column))) d

/-- The sprite rows from `row` on, in order (R142). -/
def drawRows (x0 y0 : Nat) : Nat → List Byte → Draw → Draw
  | _, [], d => d
  | row, b :: bs, d => drawRows x0 y0 (row + 1) bs (drawRow x0 (wrapRow (y0 + row)) b d)

/-- 00E0 (R141): VF unchanged. -/
def execCls (s : State) : Result := .next (s.setDisp clearDisplay).advance

/-- Dxyn (R142): the coordinates are latched and the whole access is checked before anything changes; VF is written once, after
all rows. -/
def execDrw (x y : Reg) (n : BitVec 4) (s : State) : Result :=
  orRaise s (memRead s (indexAddr s) n.toNat) fun rows =>
    let d := drawRows (s.v x).toNat (s.v y).toNat 0 rows { disp := s.disp, collision := false }
    .next ((s.setDisp d.disp).setV VF (flagByte d.collision)).advance

end Sys2Proof.Machine
end

