-- ==== Sys2Proof/Machine/Operands.lean ====
section
/-! DEFINITION. The operand forms beyond a register or an immediate byte (30_encoding.md R63, 44_keys_timers.md R150 to R152,
42_index_memory.md R122). -/

namespace Sys2Proof.Machine

/-- nnn zero-extended to 16 bits (R63). -/
def addrOf (nnn : BitVec 12) : Word := nnn.setWidth 16

/-- Vx as the number of one of the sixteen keys; a larger value is a fault (R150, R151, D10). -/
def keyOperand (s : State) (x : Reg) : Except FaultCause (Fin 16) :=
  if h : (s.v x).toNat < 16 then .ok ⟨(s.v x).toNat, h⟩ else .error (.keyIndexOutOfRange (s.v x))

/-- Vx as a hexadecimal digit of the font table; a larger value is a fault (R122, D11). -/
def fontOperand (s : State) (x : Reg) : Except FaultCause (Fin 16) :=
  if h : (s.v x).toNat < 16 then .ok ⟨(s.v x).toNat, h⟩ else .error (.fontIndexOutOfRange (s.v x))

/-- `keys[k]` in this cycle (10_state.md R20). -/
def keyDown (s : State) (k : Nat) : Bool := s.keys.getLsbD k

/-- The smallest pressed key among `k, k+1, ..., k+n-1`. -/
def lowestKeyFrom (keys : Keys) : Nat → Nat → Option Nat
  | _, 0 => none
  | k, n + 1 => if keys.getLsbD k then some k else lowestKeyFrom keys (k + 1) n

/-- The smallest pressed key, or none when no key is down (R152, D12). -/
def lowestKey (s : State) : Option Nat := lowestKeyFrom s.keys 0 16

end Sys2Proof.Machine
end

