-- ==== Sys2Proof/Machine/Flow.lean ====
section
/-! DEFINITION. Control transfer: 00EE, 1nnn, 2nnn, 3xkk, 4xkk, 5xy0, 9xy0 (40_flow.md R84 to R90). -/

namespace Sys2Proof.Machine

/-- 00EE (R84): pop into PC, with no further advance. -/
def execRet (s : State) : Result :=
  orRaise s (pop s) fun popped => .next (popped.2.setPC popped.1)

/-- 1nnn (R85). -/
def execJp (nnn : BitVec 12) (s : State) : Result := .next (s.setPC (addrOf nnn))

/-- 2nnn (R86): push PC + 2, jump. -/
def execCall (nnn : BitVec 12) (s : State) : Result :=
  orRaise s (push s (s.PC + 2)) fun pushed => .next (pushed.setPC (addrOf nnn))

/-- 3xkk (R87). -/
def execSeImm (x : Reg) (kk : Byte) (s : State) : Result := .next (s.skipIf (s.v x == kk))

/-- 4xkk (R88). -/
def execSneImm (x : Reg) (kk : Byte) (s : State) : Result := .next (s.skipIf (s.v x != kk))

/-- 5xy0 (R89). -/
def execSeReg (x y : Reg) (s : State) : Result := .next (s.skipIf (s.v x == s.v y))

/-- 9xy0 (R90). -/
def execSneReg (x y : Reg) (s : State) : Result := .next (s.skipIf (s.v x != s.v y))

end Sys2Proof.Machine
end

