-- ==== Sys2Proof/Machine/IndexMemory.lean ====
section
/-! DEFINITION. Index register and memory: Annn, Bnnn, Fx29, Fx33, Fx55, Fx65 (42_index_memory.md R120 to R126). I is written
only by the first three. -/

namespace Sys2Proof.Machine

/-- Annn (R120). -/
def execLdI (nnn : BitVec 12) (s : State) : Result := .next (s.setI (addrOf nnn)).advance

/-- Bnnn (R121): loads I, does not jump; the 16-bit sum is stored untruncated. -/
def execLdIV0 (nnn : BitVec 12) (s : State) : Result :=
  .next (s.setI ((s.v 0).setWidth 16 + addrOf nnn)).advance

/-- Fx29 (R122). -/
def execLdFVx (x : Reg) (s : State) : Result :=
  orRaise s (fontOperand s x) fun d => .next (s.setI (fontTable s.cfg d)).advance

/-- The binary-coded-decimal converter: hundreds, tens, units, one byte each (R123). -/
def bcdBytes (v : Byte) : List Byte :=
  [BitVec.ofNat 8 (v.toNat / 100), BitVec.ofNat 8 (v.toNat / 10 % 10), BitVec.ofNat 8 (v.toNat % 10)]

/-- Fx33 (R123). -/
def execLdBVx (x : Reg) (s : State) : Result :=
  orRaise s (memWrite s (indexAddr s) (bcdBytes (s.v x))) fun t => .next t.advance

/-- Fx55 (R124). -/
def execStRegs (x : Reg) (s : State) : Result :=
  orRaise s (memWrite s (indexAddr s) (regsThrough s x)) fun t => .next t.advance

/-- Fx65 (R125). -/
def execLdRegs (x : Reg) (s : State) : Result :=
  orRaise s (memRead s (indexAddr s) (x.val + 1)) fun bs =>
    .next { s with V := loadFrom s.V 0 bs }.advance

end Sys2Proof.Machine
end

