-- ==== Sys2Proof/Machine/KeysTimers.lean ====
section
/-! DEFINITION. Keyboard and timer instructions: Ex9E, ExA1, Fx0A, Fx07, Fx15, Fx18 (44_keys_timers.md R150 to R155), and the
timer tick (60_exceptions.md R181). -/

namespace Sys2Proof.Machine

/-- Ex9E (R150). -/
def execSkp (x : Reg) (s : State) : Result :=
  orRaise s (keyOperand s x) fun k => .next (s.skipIf (keyDown s k))

/-- ExA1 (R151). -/
def execSknp (x : Reg) (s : State) : Result :=
  orRaise s (keyOperand s x) fun k => .next (s.skipIf (!keyDown s k))

/-- Fx0A (R152): with no key down nothing changes, PC included, so the next cycle executes it again; else the smallest pressed
key is recorded. -/
def execLdVxK (x : Reg) (s : State) : Result :=
  match lowestKey s with
  | none => .next s
  | some k => .next (s.setV x (BitVec.ofNat 8 k)).advance

/-- Fx07 (R153). -/
def execLdVxDt (x : Reg) (s : State) : Result := .next (s.setV x s.DT).advance

/-- Fx15 (R154). -/
def execLdDtVx (x : Reg) (s : State) : Result := .next (s.setDT (s.v x)).advance

/-- Fx18 (R155). -/
def execLdStVx (x : Reg) (s : State) : Result := .next (s.setST (s.v x)).advance

/-- One counter of the timer subsystem at a tick: down by one while above 0, never below (60_exceptions.md R180, R181). -/
def countDown (b : Byte) : Byte := if b = 0 then 0 else b - 1

/-- One fire of the timer clock (60_exceptions.md R181): nothing while halted (R186), else both counters. -/
def timerTick (s : State) : Result :=
  if s.halted then .next s else .next { s with DT := countDown s.DT, ST := countDown s.ST }

end Sys2Proof.Machine
end

