-- ==== Sys2Proof/Machine/Cycle.lean ====
section
/-! DEFINITION. The instruction cycle (40_flow.md R80 to R83). -/

namespace Sys2Proof.Machine

/-- The fetch (R81): only from 0x200 .. 0xFFE, big-endian, at any alignment. -/
def fetch (s : State) : Except FaultCause Word :=
  if s.PC.toNat < programBase ∨ lastFetch < s.PC.toNat then .error (.fetchOutOfRange s.PC)
  else .ok (wordOfBytes (s.readByte s.PC.toNat) (s.readByte (s.PC.toNat + 1)))

/-- An unmatched word (30_encoding.md R67): a no-op that still advances, or under strict decoding the fault. -/
def execUnmatched (w : Word) (s : State) : Result :=
  if s.cfg.strictDecode then raise (.unimplementedOpcode w) s else .next s.advance

/-- Decode and dispatch (R82). -/
def execWord (w : Word) (s : State) : Result :=
  match decodeWord w with
  | some i => exec i s
  | none => execUnmatched w s

/-- Fetch, decode, execute. -/
def fetchDecodeExecute (s : State) : Result := orRaise s (fetch s) fun w => execWord w s

/-- One fire of the instruction clock (R80): nothing while halted (60_exceptions.md R173), else the ports are sampled and one
instruction runs. -/
def instructionCycle (keys : Keys) (rand : Byte) (s : State) : Result :=
  if s.halted then .next s else fetchDecodeExecute (s.sample keys rand)

end Sys2Proof.Machine
end

