-- ==== Sys2Proof/Machine/ResetEvent.lean ====
section
/-! DEFINITION. The reset event with its ROM load (70_reset_and_hazards.md R200 to R202). -/

namespace Sys2Proof.Machine

/-- The MachineState of 10_state.md R27 before the ROM is copied: memory zeroed and the font copied (nothing listed), every
register at its reset value. The parameters, the input ports and the environment's coming events are not the machine's to
reset; `tick_acc` is 0 at reset (60_exceptions.md R185). -/
def freshState (s : State) : State :=
  { State.reset with
    cfg := s.cfg, keys := s.keys, rand := s.rand, inputs := s.inputs, drawIndex := s.drawIndex }

/-- `Reset(ROM)` (R200), in any state: a ROM of at most 3584 bytes is copied to 0x200; a longer one leaves the machine halted
with RomTooLarge and no ROM byte copied (R202). -/
def resetEvent (rom : List Byte) (s : State) : Result :=
  if romMax < rom.length then raise (.romTooLarge rom.length) (freshState s)
  else .next ((freshState s).setMem (writeBytes s.cfg [] programBase rom))

end Sys2Proof.Machine
end

