-- ==== Sys2Proof/Machine/Events.lean ====
section
/-! DEFINITION. Which event comes next, and what it does (00_scope.md R6; 60_exceptions.md R182, R185; log 2, 3, 4). -/

namespace Sys2Proof.Machine

/-- The next event: the head of the environment's list. Once the list is empty, the reference schedule of R185: a tick while
`tick_acc >= INSTR_HZ`, else an instruction cycle with free port values. -/
def nextEvent (s : State) : Event :=
  match s.inputs with
  | e :: _ => e
  | [] =>
    if s.cfg.instrHz ≤ s.tickAcc then .timerClk
    else .instrClk (freeKeys s.drawIndex) (freeRand s.drawIndex)

/-- Take the next event off: the list loses its head, or the reference schedule moves on: `tick_acc` loses INSTR_HZ at a tick and
gains 60 at a cycle. Only the environment's own fields change. -/
def consumeEvent (s : State) : State :=
  match s.inputs with
  | _ :: rest => { s with inputs := rest }
  | [] =>
    if s.cfg.instrHz ≤ s.tickAcc then { s with tickAcc := s.tickAcc - s.cfg.instrHz }
    else { s with tickAcc := s.tickAcc + timerHz, drawIndex := s.drawIndex + 1 }

/-- One event is one atomic step (R6, R182). -/
def fire : Event → State → Result
  | .reset rom, s => resetEvent rom s
  | .instrClk keys rand, s => instructionCycle keys rand s
  | .timerClk, s => timerTick s

end Sys2Proof.Machine
end

