-- ==== Sys2Proof/Machine/Step.lean ====
section
/-! DEFINITION. One step of the machine, and the placing of one instruction where the next step fetches it. -/

namespace Sys2Proof.Machine

/-- One step: the next event happens (60_exceptions.md R182). -/
def step (s : State) : Host.Outcome State Fault Refusal := fire (nextEvent s) (consumeEvent s)

/-- The instruction whose word is `w` (numbered as spec/opcode_table.json numbers it; bits from `nbits` on are 0) stored at PC,
and an instruction cycle, with the port values of `s`, put in front of the environment's events, so that the very next step
runs it (log 7). -/
def State.withFetchWord (s : State) (nbits w : Nat) : State :=
  { s with
    mem := writeBytes s.cfg s.mem s.PC.toNat (tableBytes nbits w)
    inputs := .instrClk s.keys s.rand :: s.inputs }

end Sys2Proof.Machine
end

