-- ==== Sys2Proof/Machine/Ports.lean ====
section
/-! DEFINITION. The output ports: views of the state between steps (00_scope.md R6; 60_exceptions.md R188 to R190). -/

namespace Sys2Proof.Machine

/-- Port `display` (R189): the pixel grid, read-only, whole between steps. -/
def portDisplay (s : State) (r : Fin 32) (c : Fin 64) : Bool := pixel s.disp r c

/-- Port `dt[7:0]` (R190). -/
def portDt (s : State) : Byte := s.DT

/-- Port `st[7:0]` (R188, R190). -/
def portSt (s : State) : Byte := s.ST

/-- Port `sound_on`: 1 when ST is not 0 (R188). -/
def portSoundOn (s : State) : Bool := s.ST != 0

/-- Port `halted` (R190). -/
def portHalted (s : State) : Bool := s.halted

/-- Port `fault[3:0]` (R190). -/
def portFault (s : State) : BitVec 4 := s.fault

end Sys2Proof.Machine
end

