-- ==== Sys2Proof/Machine/Validity.lean ====
section
/-! DEFINITION. When a cycle faults: the table of 60_exceptions.md R170 with its conditions, in the order of R174, written apart
from the meanings. `none` says the cycle is valid in the sense of 70_reset_and_hazards.md R205. -/

namespace Sys2Proof.Machine

/-- MemOutOfRange of an access of `n` bytes at `a`: its last address is above 0xFFF (R170 code 4; 20_memory.md R46, R47). It
records that address and the first one above 0xFFF (decision D7; log 26). -/
def rangeFault (a n : Nat) : Option FaultCause :=
  if 0 < n ∧ 0xFFF < a + n - 1 then some (.memOutOfRange (a + n - 1) (if a ≤ 0xFFF then 0x1000 else a)) else none

/-- FontWrite of a store of `n` bytes at `a`: the first of its addresses in FONT_BASE .. FONT_BASE+79 (code 5). -/
def fontFault (cfg : Config) (a n : Nat) : Option FaultCause :=
  if max a cfg.fontBase < min (a + n) (cfg.fontBase + fontBytes) then some (.fontWrite (max a cfg.fontBase)) else none

/-- The fault the selected instruction finds, if any (R170, R174). -/
def instrFault (s : State) : Instr → Option FaultCause
  | .call _ => if s.SP = 16 then some (.stackOverflow s.PC) else none
  | .ret => if s.SP = 0 then some (.stackUnderflow s.PC) else none
  | .drw _ _ n => rangeFault s.I.toNat n.toNat
  | .ldRegs x => rangeFault s.I.toNat (x.val + 1)
  | .ldBVx _ => (rangeFault s.I.toNat 3).or (fontFault s.cfg s.I.toNat 3)
  | .stRegs x => (rangeFault s.I.toNat (x.val + 1)).or (fontFault s.cfg s.I.toNat (x.val + 1))
  | .skp x | .sknp x => if 15 < (s.v x).toNat then some (.keyIndexOutOfRange (s.v x)) else none
  | .ldFVx x => if 15 < (s.v x).toNat then some (.fontIndexOutOfRange (s.v x)) else none
  | .cls | .jp _ | .seImm _ _ | .sneImm _ _ | .seReg _ _ | .sneReg _ _ => none
  | .ldImm _ _ | .addImm _ _ | .ldReg _ _ | .orReg _ _ | .andReg _ _ | .xorReg _ _ | .addReg _ _ => none
  | .sub _ _ | .shr _ _ | .subn _ _ | .shl _ _ | .rnd _ _ | .ldI _ | .ldIV0 _ => none
  | .ldVxDt _ | .ldVxK _ | .ldDtVx _ | .ldStVx _ => none

/-- The fault of one cycle, if any: the fetch first, then strict decoding, then the instruction's own check (R174). -/
def cycleFault (s : State) : Option FaultCause :=
  if s.PC.toNat < 0x200 ∨ 0xFFE < s.PC.toNat then some (.fetchOutOfRange s.PC)
  else
    let w := wordOfBytes (s.readByte s.PC.toNat) (s.readByte (s.PC.toNat + 1))
    match decodeWord w with
    | some i => instrFault s i
    | none => if s.cfg.strictDecode then some (.unimplementedOpcode w) else none

/-! ## What the spec's tables say an instruction writes and draws -/

/-- The V registers an instruction may write: the rows "write Vx", "write V0..Vx" and "write VF (implicit)" of the table of
10_state.md R12. -/
def writesReg (i : Instr) (r : Reg) : Bool :=
  match i with
  | .ldImm x _ | .addImm x _ | .rnd x _ => r == x
  | .ldReg x _ | .orReg x _ | .andReg x _ | .xorReg x _ => r == x
  | .addReg x _ | .sub x _ | .shr x _ | .subn x _ | .shl x _ => r == x || r == VF
  | .ldVxDt x | .ldVxK x => r == x
  | .ldRegs x => decide (r ≤ x)
  | .drw _ _ _ => r == VF
  | .cls | .ret | .jp _ | .call _ | .seImm _ _ | .sneImm _ _ | .seReg _ _ | .sneReg _ _ => false
  | .ldI _ | .ldIV0 _ | .skp _ | .sknp _ | .ldDtVx _ | .ldStVx _ | .ldFVx _ | .ldBVx _ | .stRegs _ => false

/-- A 1 bit of the sprite of Dxyn falls on a cell: the cell lies in one of the n rows and 8 columns from (Vx, Vy), each reduced
modulo the grid, and the bit there, most significant first, is 1 (43_display.md R140, R142). -/
def spriteCovers (s : State) (x y : Reg) (n : BitVec 4) (r : Fin 32) (c : Fin 64) : Bool :=
  let row := (r.val + 32 - (s.v y).toNat % 32) % 32
  let col := (c.val + 64 - (s.v x).toNat % 64) % 64
  decide (row < n.toNat) && decide (col < 8) && (s.readByte (s.I.toNat + row)).getLsbD (7 - col)

/-- No byte of a store of `n` bytes through I lies above 0xFFF or in the font (20_memory.md R47). -/
def storeAllowed (s : State) (n : Nat) : Prop :=
  s.I.toNat + n ≤ 0x1000 ∧ ∀ k, k < n → inFont s.cfg (s.I.toNat + k) = false

end Sys2Proof.Machine
end

