-- ==== Sys2Proof/WellFormed.lean ====
section
/-! DEFINITION. Well-formedness of the data a machine is given. Every term of `Instr` is well formed: each operand's type
holds exactly the values its field can hold (10_state.md R25, 30_encoding.md R61), so there is no check to make on it. The
checks are on the parameters and on the ROM image. -/

namespace Sys2Proof

/-- The constraints of 00_scope.md R5: INSTR_HZ is positive, and FONT_BASE + 80 <= 0x200. -/
def Config.wf (cfg : Config) : Bool :=
  decide (0 < cfg.instrHz) && decide (cfg.fontBase + fontBytes ≤ programBase)

/-- The load check of 70_reset_and_hazards.md R202: a ROM of 0..3584 bytes. -/
def romFits (rom : List Byte) : Bool :=
  decide (rom.length ≤ romMax)

end Sys2Proof
end

