-- ==== Sys2Proof/Safety.lean ====
section
/-! DEFINITION. What counts as a safe state and a safe run, and the terms the claims use: the pieces of state, what it is to
change only some of them, what it is to have taken a fault, the end of a run, and the invariant of the machine. -/

namespace Sys2Proof.Machine

/-- A state is safe when no fatal error has halted the machine (10_state.md R22; 60_exceptions.md R173). -/
def State.safe (s : State) : Bool := !s.halted

/-- The next `k` steps all lead to safe states. -/
def SafeFor (k : Nat) (s : State) : Prop :=
  ∀ j, j ≤ k → ∃ t, Host.Core.run core j s = .next t ∧ t.safe = true

/-- The end of a run (70_reset_and_hazards.md R210): not halted, and the word at PC is a jump to itself. -/
def State.endOfRun (s : State) : Prop :=
  s.halted = false ∧ ∃ nnn : BitVec 12, fetch s = .ok (encode (.jp nnn)) ∧ s.PC = nnn.setWidth 16

/-! ## Pieces of state -/

/-- The pieces of state, each as small as an instruction can change it. -/
inductive Component where
  | v (x : Reg)
  | index
  | pc
  | sp
  | stackEntry (k : Fin 16)
  | dt
  | st
  | cell (a : Nat)
  | pixel (r : Fin 32) (c : Fin 64)
  /-- `halted`, `fault` and the model's record of the fault. -/
  | faultStatus
  /-- The sampled input ports. -/
  | keys
  | rand
  | config
  /-- The environment's coming events, its schedule and its free values. -/
  | environment

/-- Two states hold the same in one piece; memory is seen through the reading of one byte. -/
def SameAt (s t : State) : Component → Prop
  | .v x => t.v x = s.v x
  | .index => t.I = s.I
  | .pc => t.PC = s.PC
  | .sp => t.SP = s.SP
  | .stackEntry k => t.stack[k] = s.stack[k]
  | .dt => t.DT = s.DT
  | .st => t.ST = s.ST
  | .cell a => t.readByte a = s.readByte a
  | .pixel r c => pixel t.disp r c = pixel s.disp r c
  | .faultStatus => t.halted = s.halted ∧ t.fault = s.fault ∧ t.faultRecord = s.faultRecord
  | .keys => t.keys = s.keys
  | .rand => t.rand = s.rand
  | .config => t.cfg = s.cfg
  | .environment => t.inputs = s.inputs ∧ t.tickAcc = s.tickAcc ∧ t.drawIndex = s.drawIndex

/-- The frame: from `s` to `t` every piece outside `allowed` is unchanged. -/
def ChangesOnly (allowed : Component → Prop) (s t : State) : Prop := ∀ c, allowed c ∨ SameAt s t c

/-- `t` is `s` after the entry of fault `c` with code `n`: halted, the code latched, the info on record, and nothing else
changed (60_exceptions.md R171, R172). -/
def Raised (c : FaultCause) (n : BitVec 4) (s t : State) : Prop :=
  t.halted = true ∧ t.fault = n ∧ t.faultRecord = some c ∧ ChangesOnly (· = .faultStatus) s t

/-! ## The invariant -/

/-- What every step keeps (10_state.md R14, R16, R25, R28; 20_memory.md R47; 60_exceptions.md R170, R185). -/
structure Invariant (s : State) : Prop where
  /-- The parameters meet their constraints. -/
  config : s.cfg.wf = true
  /-- Memory has its canonical form. -/
  memory : Memory.wf s.cfg s.mem = true
  /-- The glyph bytes are as reset copied them. -/
  glyphs : ∀ a, inFont s.cfg a = true → s.readByte a = resetByte s.cfg a
  /-- The largest PC is a skip at 0xFFE. -/
  pc : s.PC.toNat ≤ 0x1002
  /-- The largest I is 0xFF + 0xFFF. -/
  index : s.I.toNat ≤ 0x10FE
  /-- A return address is at most 0xFFE + 2. -/
  stack : ∀ k : Fin 16, s.stack[k].toNat ≤ 0x1000
  /-- The fault status is one thing: halted exactly when a fault is recorded, with that fault's code, else code 0. -/
  status : s.halted = s.faultRecord.isSome ∧ s.fault = (s.faultRecord.map faultCode).getD 0
  /-- The reference schedule never falls behind by more than one cycle's worth. -/
  schedule : s.tickAcc < s.cfg.instrHz + timerHz

end Sys2Proof.Machine
end

