-- ==== Sys2Proof/Certificates/Slice0/Obligations.lean ====
section
/-! DEFINITION. The statements for the provers. `ChangesOnly P s t` is the frame: every piece of state outside P reads in `t` as
it does in `s`, every byte of memory among them. `Raised` is the entry of a fault. Where a statement rests on one of the spec's
own decisions (92_eei_decisions.md D1 to D29) its docstring names it. -/

open Sys2Proof Sys2Proof.Machine

/-! ## Encoding -/

/-- 30_encoding.md R60 to R65: decoding the bytes of any instruction gives it back, with every operand at every value its field
admits, and leaves the bytes after it. -/
def Obligations.DecodeOfEncodedBytes : Prop :=
  ∀ (i : Instr) (rest : List Byte), decode (encodeBytes i ++ rest) = .ok (i, rest)

/-- 30_encoding.md R64, R65: a matched word is the encoding of the instruction it selects, so each word has one meaning and no
bit of it is dropped. -/
def Obligations.EncodeOfDecodedWord : Prop :=
  ∀ (w : Word) (i : Instr), decodeWord w = some i → encode i = w

/-- 30_encoding.md R64, R65, R66 (patterns 00EE: decision D4; 5xy0 and 9xy0: conflict C1): a word is unmatched exactly when it
matches no row of the table, and a matched word matches the row of its instruction and no other. -/
def Obligations.DecodeSelectsTheOnlyMatchingRow : Prop :=
  ∀ w : Word,
    (decodeWord w = none ↔ ∀ row ∈ opcodeTable, row.matchesWord w = false) ∧
    ∀ i, decodeWord w = some i → ∀ row ∈ opcodeTable, (row.matchesWord w = true ↔ row.mnemonic = mnemonicOf i)

/-- Words of the spec's examples, read from the encoding column of 30_encoding.md R64 (00EE: decision D4), and words that match
nothing (R65, R66). That 5121 matches nothing is the reading conflict C1 chose, and that F11E and 0000 do is decision D13 (log 14,
DESIGN CHOICE). -/
def Obligations.DecodesTheWordsOfTheSpec : Prop :=
  decodeWord 0x00E0 = some .cls ∧ decodeWord 0x00EE = some .ret ∧
  decodeWord 0x1234 = some (.jp 0x234) ∧ decodeWord 0x332A = some (.seImm 3 0x2A) ∧
  decodeWord 0x5120 = some (.seReg 1 2) ∧ decodeWord 0x6A2F = some (.ldImm 10 0x2F) ∧
  decodeWord 0x8014 = some (.addReg 0 1) ∧ decodeWord 0xB300 = some (.ldIV0 0x300) ∧
  decodeWord 0xC30F = some (.rnd 3 0x0F) ∧ decodeWord 0xD015 = some (.drw 0 1 5) ∧
  decodeWord 0xE19E = some (.skp 1) ∧ decodeWord 0xF30A = some (.ldVxK 3) ∧
  decodeWord 0xF533 = some (.ldBVx 5) ∧ decodeWord 0xF465 = some (.ldRegs 4) ∧
  decodeWord 0x5121 = none ∧ decodeWord 0x8128 = none ∧ decodeWord 0xF11E = none ∧ decodeWord 0x0000 = none

/-! ## The step and the cycle -/

/-- The next event is the head of the environment's list (log 2), and a step is that event alone; 00_scope.md R6, 60_exceptions.md
R182. -/
def Obligations.StepIsTheNextEventOfTheList : Prop :=
  ∀ (s : State) (e : Event) (rest : List Event), s.inputs = e :: rest → step s = fire e { s with inputs := rest }

/-- 40_flow.md R80 to R82 (the fetch range: decision D6; the ports sampled at the start of the cycle: D21): when the next event is
an instruction clock and the word at PC is that of `i`, the step is `exec i` with the ports sampled and the event taken off,
which changes only the environment. -/
def Obligations.StepRunsTheDecodedInstruction : Prop :=
  ∀ (s : State) (keys : Keys) (rand : Byte) (i : Instr),
    nextEvent s = .instrClk keys rand → s.halted = false → 0x200 ≤ s.PC.toNat → s.PC.toNat ≤ 0xFFE →
    decodeWord (wordOfBytes (s.readByte s.PC.toNat) (s.readByte (s.PC.toNat + 1))) = some i →
    step s = exec i ((consumeEvent s).sample keys rand) ∧ ChangesOnly (· = .environment) s (consumeEvent s)

/-- 40_flow.md R81 (decision D6): a fetch from outside 0x200 .. 0xFFE is the fault FetchOutOfRange, code 3, with PC as it was. -/
def Obligations.FetchOutsideTheProgramFaults : Prop :=
  ∀ (s : State) (keys : Keys) (rand : Byte), s.halted = false → s.PC.toNat < 0x200 ∨ 0xFFE < s.PC.toNat →
    ∃ t, instructionCycle keys rand s = .next t ∧ Raised (.fetchOutOfRange s.PC) 3 (s.sample keys rand) t

/-- 30_encoding.md R67 (strict decoding: decision D14): an unmatched word only advances PC by 2 under permissive decoding, and is
the fault UnimplementedOpcode, code 8, under strict decoding. -/
def Obligations.UnmatchedWordIsNoOpOrStrictFault : Prop :=
  ∀ (s : State) (keys : Keys) (rand : Byte) (w : Word),
    s.halted = false → fetch s = .ok w → decodeWord w = none →
    (s.cfg.strictDecode = false → ∃ t, instructionCycle keys rand s = .next t ∧ t.PC = s.PC + 2 ∧
      ChangesOnly (· = .pc) (s.sample keys rand) t) ∧
    (s.cfg.strictDecode = true → ∃ t, instructionCycle keys rand s = .next t ∧
      Raised (.unimplementedOpcode w) 8 (s.sample keys rand) t)

/-- The model stops nowhere: every step of every state answers a next state (60_exceptions.md section 1, every fault has an
entry; log 8). -/
def Obligations.EveryStepAnswersANextState : Prop :=
  ∀ s : State, ∃ t, step s = .next t

/-- 60_exceptions.md R170 and R174 (decisions D5 to D8, D10, D11, D14, D17, D18; the two addresses on record for code 4: log 26): a
cycle faults exactly when the table of conditions says so, with the first fault in the order fetch, decode, instruction; no other
condition faults. -/
def Obligations.CycleFaultsExactlyByTheTable : Prop :=
  ∀ s : State, s.halted = false →
    (∀ c, cycleFault s = some c → fetchDecodeExecute s = raise c s) ∧
    (cycleFault s = none → ∃ t, fetchDecodeExecute s = .next t ∧ t.halted = false)

/-- 60_exceptions.md R171, R172 (decision D17): a faulting cycle changes the fault status and nothing else beyond the sampled
ports; the code is that of the recorded fault, 1 to 9. -/
def Obligations.FaultingCycleChangesOnlyTheFaultStatus : Prop :=
  ∀ (s t : State) (keys : Keys) (rand : Byte),
    s.halted = false → instructionCycle keys rand s = .next t → t.halted = true →
    ∃ c, Raised c (faultCode c) (s.sample keys rand) t ∧ 1 ≤ (faultCode c).toNat ∧ (faultCode c).toNat ≤ 9

/-- 60_exceptions.md R173, R175, R186 (decision D17): while halted, a step that is not a reset changes nothing but the environment:
halted and its code are sticky, and no tick counts. -/
def Obligations.HaltedMachineIsFrozenUntilReset : Prop :=
  ∀ s : State, s.halted = true → (∀ rom, nextEvent s ≠ .reset rom) →
    step s = .next (consumeEvent s) ∧ ChangesOnly (· = .environment) s (consumeEvent s)

/-! ## Reset and the invariant -/

/-- 70_reset_and_hazards.md R200 to R202, 10_state.md R27 (decisions D2, D3, D15, D25): reset, in any state, gives every register
its reset value, copies the glyphs, copies the ROM to 0x200 and zeroes every other byte. -/
def Obligations.ResetBuildsAFreshMachine : Prop :=
  ∀ (s : State) (rom : List Byte), s.cfg.wf = true → rom.length ≤ 3584 →
    ∃ t, resetEvent rom s = .next t ∧
      (∀ x, t.v x = 0) ∧ t.I = 0 ∧ t.PC = 0x200 ∧ t.SP = 0 ∧ (∀ k : Fin 16, t.stack[k] = 0) ∧ t.DT = 0 ∧ t.ST = 0 ∧
      (∀ r c, pixel t.disp r c = false) ∧ t.halted = false ∧ t.fault = 0 ∧ t.cfg = s.cfg ∧
      (∀ (d : Fin 16) (r : Fin 5), t.readByte (s.cfg.fontBase + 5 * d.val + r.val) = s.cfg.fontGlyphs[d][r]) ∧
      (∀ k, (h : k < rom.length) → t.readByte (0x200 + k) = rom[k]) ∧
      (∀ a, inFont s.cfg a = false → a < 0x200 ∨ 0x200 + rom.length ≤ a → t.readByte a = 0)

/-- 70_reset_and_hazards.md R202 (decision D25): a ROM of more than 3584 bytes leaves the machine halted with code 9, with no ROM
byte copied: memory reads as after a reset with an empty ROM, PC is 0x200. -/
def Obligations.TooLargeRomHaltsAtReset : Prop :=
  ∀ (s : State) (rom : List Byte), 3584 < rom.length →
    ∃ t u, resetEvent rom s = .next t ∧ resetEvent [] s = .next u ∧
      Raised (.romTooLarge rom.length) 9 u t ∧ t.PC = 0x200

/-- 10_state.md R27 with the default parameters (00_scope.md R5; the reset values of the input ports and of the model's own fields
are the model's, log 5, and are not stated here): the machine right after reset meets the invariant. -/
def Obligations.ResetStateMeetsInv : Prop := Invariant State.reset

/-- 10_state.md R25 with R14, R16, R28, 20_memory.md R47, 60_exceptions.md R170, R185 (decisions D6 to D8, D16, D17, D22; the
canonical form of memory is the model's, log 10): every step of every state that meets the invariant leads to one that does:
PC at most 0x1002, I at most 0x10FE, stack entries at most 0x1000, the glyph bytes as copied, one fault status, memory
canonical. -/
def Obligations.EveryStepKeepsInv : Prop :=
  ∀ s t : State, Invariant s → step s = .next t → Invariant t

/-! ## Control transfer -/

/-- 40_flow.md R85 (the fault at the next fetch: R81, decision D6): 1nnn sets PC to nnn and changes nothing else; a target outside
0x200 .. 0xFFE faults at the next fetch, not here. -/
def Obligations.JumpSetsPCOnly : Prop :=
  ∀ (s : State) (nnn : BitVec 12), ∃ t, exec (.jp nnn) s = .next t ∧ t.PC.toNat = nnn.toNat ∧
    ChangesOnly (· = .pc) s t ∧
    (nnn.toNat < 0x200 ∨ 0xFFE < nnn.toNat → fetch t = .error (.fetchOutOfRange t.PC))

/-- 40_flow.md R86 (PC + 2 on the stack: conflict C2; SP as a count: decision D16): with fewer than sixteen entries in use, 2nnn
pushes PC + 2 and jumps. -/
def Obligations.CallPushesTheReturnAddress : Prop :=
  ∀ (s : State) (nnn : BitVec 12) (h : s.SP.val < 16), ∃ t, exec (.call nnn) s = .next t ∧
    t.stack[s.SP.val] = s.PC + 2 ∧ t.SP.val = s.SP.val + 1 ∧ t.PC.toNat = nnn.toNat ∧
    ChangesOnly (fun c => c = .pc ∨ c = .sp ∨ c = .stackEntry ⟨s.SP.val, h⟩) s t

/-- 40_flow.md R86 (the code: decision D17): with sixteen entries in use 2nnn is the fault StackOverflow, code 1; SP stays 16 and
nothing is pushed. -/
def Obligations.SeventeenthCallOverflows : Prop :=
  ∀ (s : State) (nnn : BitVec 12), s.SP = 16 →
    ∃ t, exec (.call nnn) s = .next t ∧ Raised (.stackOverflow s.PC) 1 s t

/-- 40_flow.md R84 (decision D4; the popped entry stays: R17, D16): with an entry in use, 00EE sets PC to the top entry and takes
it off; every stack entry keeps its value. -/
def Obligations.ReturnPopsTheTopEntry : Prop :=
  ∀ (s : State) (h : 0 < s.SP.val), ∃ t, exec .ret s = .next t ∧
    t.PC = s.stack[s.SP.val - 1] ∧ t.SP.val = s.SP.val - 1 ∧ ChangesOnly (fun c => c = .pc ∨ c = .sp) s t

/-- 40_flow.md R84 (decision D5): with no entry in use 00EE is the fault StackUnderflow, code 2. -/
def Obligations.ReturnOnEmptyStackUnderflows : Prop :=
  ∀ s : State, s.SP = 0 → ∃ t, exec .ret s = .next t ∧ Raised (.stackUnderflow s.PC) 2 s t

/-- 40_flow.md R84 and R86 together (conflict C2): a call followed, in any state that kept the stack, by a return resumes at the
instruction after the call with the stack as deep as before. -/
def Obligations.ReturnResumesAfterTheCall : Prop :=
  ∀ (s t u : State) (nnn : BitVec 12), s.SP.val < 16 → exec (.call nnn) s = .next t →
    u.SP = t.SP → u.stack = t.stack →
    ∃ w, exec .ret u = .next w ∧ w.PC = s.PC + 2 ∧ w.SP = s.SP

/-- 40_flow.md R87, R88: the skips on an immediate, with their encodings. -/
def Obligations.SkipsOnImmediate : Prop :=
  ∀ (s : State) (x : Reg) (kk : Byte),
    decodeWord (encXKK 0x3 x kk) = some (.seImm x kk) ∧ decodeWord (encXKK 0x4 x kk) = some (.sneImm x kk) ∧
    (∃ t, exec (.seImm x kk) s = .next t ∧
      t.PC = (if (s.v x).toNat = kk.toNat then s.PC + 4 else s.PC + 2) ∧ ChangesOnly (· = .pc) s t) ∧
    (∃ t, exec (.sneImm x kk) s = .next t ∧
      t.PC = (if (s.v x).toNat = kk.toNat then s.PC + 2 else s.PC + 4) ∧ ChangesOnly (· = .pc) s t)

/-- 40_flow.md R89, R90: the skips on two registers, with their encodings. That a nonzero bottom nibble is an unmatched word is the
reading conflict C1 chose (log 14, DESIGN CHOICE). -/
def Obligations.SkipsOnRegisters : Prop :=
  ∀ (s : State) (x y : Reg),
    decodeWord (encXYN 0x5 x y 0) = some (.seReg x y) ∧ decodeWord (encXYN 0x9 x y 0) = some (.sneReg x y) ∧
    (∀ n, n ≠ 0 → decodeWord (encXYN 0x5 x y n) = none ∧ decodeWord (encXYN 0x9 x y n) = none) ∧
    (∃ t, exec (.seReg x y) s = .next t ∧
      t.PC = (if (s.v x).toNat = (s.v y).toNat then s.PC + 4 else s.PC + 2) ∧ ChangesOnly (· = .pc) s t) ∧
    (∃ t, exec (.sneReg x y) s = .next t ∧
      t.PC = (if (s.v x).toNat = (s.v y).toNat then s.PC + 2 else s.PC + 4) ∧ ChangesOnly (· = .pc) s t)

/-- The table of 10_state.md R15 and 40_flow.md R83: what every instruction leaves in PC. -/
def Obligations.PCAfterEveryInstruction : Prop :=
  ∀ (i : Instr) (s t : State), s.halted = false → exec i s = .next t →
    if t.halted then t.PC = s.PC
    else match i with
      | .jp nnn | .call nnn => t.PC = nnn.setWidth 16
      | .ret => ∃ k : Fin 16, k.val + 1 = s.SP.val ∧ t.PC = s.stack[k]
      | .seImm _ _ | .sneImm _ _ | .seReg _ _ | .sneReg _ _ | .skp _ | .sknp _ => t.PC = s.PC + 4 ∨ t.PC = s.PC + 2
      | .ldVxK _ => t.PC = if s.keys = 0 then s.PC else s.PC + 2
      | _ => t.PC = s.PC + 2

/-! ## Registers and arithmetic -/

/-- 41_alu.md R101: Vx = kk, nothing else but PC changes, VF only as the destination. -/
def Obligations.LoadImmediateSetsVx : Prop :=
  ∀ (s : State) (x : Reg) (kk : Byte), decodeWord (encXKK 0x6 x kk) = some (.ldImm x kk) ∧
    ∃ t, exec (.ldImm x kk) s = .next t ∧ t.v x = kk ∧ t.PC = s.PC + 2 ∧
      ChangesOnly (fun c => c = .v x ∨ c = .pc) s t

/-- 41_alu.md R102: Vx = Vx + kk modulo 256, with no flag. -/
def Obligations.AddImmediateWrapsWithoutFlag : Prop :=
  ∀ (s : State) (x : Reg) (kk : Byte), decodeWord (encXKK 0x7 x kk) = some (.addImm x kk) ∧
    ∃ t, exec (.addImm x kk) s = .next t ∧ (t.v x).toNat = ((s.v x).toNat + kk.toNat) % 256 ∧ t.PC = s.PC + 2 ∧
      ChangesOnly (fun c => c = .v x ∨ c = .pc) s t

/-- 41_alu.md R103: Vx = Vy, no flag. -/
def Obligations.CopySetsVxToVy : Prop :=
  ∀ (s : State) (x y : Reg), decodeWord (encXYN 0x8 x y 0x0) = some (.ldReg x y) ∧
    ∃ t, exec (.ldReg x y) s = .next t ∧ t.v x = s.v y ∧ t.PC = s.PC + 2 ∧
      ChangesOnly (fun c => c = .v x ∨ c = .pc) s t

/-- 41_alu.md R104 to R106 (VF unchanged: decision D29): OR, AND and XOR bit by bit. -/
def Obligations.LogicIsBitwiseWithoutFlag : Prop :=
  ∀ (s : State) (x y : Reg),
    (∃ t, exec (.orReg x y) s = .next t ∧ t.PC = s.PC + 2 ∧ ChangesOnly (fun c => c = .v x ∨ c = .pc) s t ∧
      ∀ k, (t.v x).getLsbD k = ((s.v x).getLsbD k || (s.v y).getLsbD k)) ∧
    (∃ t, exec (.andReg x y) s = .next t ∧ t.PC = s.PC + 2 ∧ ChangesOnly (fun c => c = .v x ∨ c = .pc) s t ∧
      ∀ k, (t.v x).getLsbD k = ((s.v x).getLsbD k && (s.v y).getLsbD k)) ∧
    (∃ t, exec (.xorReg x y) s = .next t ∧ t.PC = s.PC + 2 ∧ ChangesOnly (fun c => c = .v x ∨ c = .pc) s t ∧
      ∀ k, (t.v x).getLsbD k = ((s.v x).getLsbD k != (s.v y).getLsbD k))

/-- 41_alu.md R107 with R100 (decision D9): the sum modulo 256 in Vx and the carry in VF; with x = 0xF the carry stands. -/
def Obligations.AddSetsSumAndCarry : Prop :=
  ∀ (s : State) (x y : Reg), ∃ t, exec (.addReg x y) s = .next t ∧
    (x ≠ VF → (t.v x).toNat = ((s.v x).toNat + (s.v y).toNat) % 256) ∧
    (t.v VF).toNat = (if (s.v x).toNat + (s.v y).toNat > 255 then 1 else 0) ∧
    t.PC = s.PC + 2 ∧ ChangesOnly (fun c => c = .v x ∨ c = .v VF ∨ c = .pc) s t

/-- 41_alu.md R108, R110 with R100 (decision D9): the difference modulo 256 in Vx and the strict comparison in VF; with x = 0xF the
difference stands. -/
def Obligations.SubtractSetsDifferenceAndNoBorrow : Prop :=
  ∀ (s : State) (x y : Reg),
    (∃ t, exec (.sub x y) s = .next t ∧
      (t.v x).toNat = ((s.v x).toNat + 256 - (s.v y).toNat) % 256 ∧
      (x ≠ VF → (t.v VF).toNat = if (s.v x).toNat > (s.v y).toNat then 1 else 0) ∧
      t.PC = s.PC + 2 ∧ ChangesOnly (fun c => c = .v x ∨ c = .v VF ∨ c = .pc) s t) ∧
    (∃ t, exec (.subn x y) s = .next t ∧
      (t.v x).toNat = ((s.v y).toNat + 256 - (s.v x).toNat) % 256 ∧
      (x ≠ VF → (t.v VF).toNat = if (s.v y).toNat > (s.v x).toNat then 1 else 0) ∧
      t.PC = s.PC + 2 ∧ ChangesOnly (fun c => c = .v x ∨ c = .v VF ∨ c = .pc) s t)

/-- 41_alu.md R109, R111 with R100 (decision D9): Vx itself shifted by one, whatever the y field, and the lost bit in VF; with
x = 0xF the shifted value stands. -/
def Obligations.ShiftsMoveVxAndKeepTheLostBit : Prop :=
  ∀ (s : State) (x y : Reg),
    (∃ t, exec (.shr x y) s = .next t ∧ (t.v x).toNat = (s.v x).toNat / 2 ∧
      (x ≠ VF → (t.v VF).toNat = (s.v x).toNat % 2) ∧
      t.PC = s.PC + 2 ∧ ChangesOnly (fun c => c = .v x ∨ c = .v VF ∨ c = .pc) s t) ∧
    (∃ t, exec (.shl x y) s = .next t ∧ (t.v x).toNat = (2 * (s.v x).toNat) % 256 ∧
      (x ≠ VF → (t.v VF).toNat = (s.v x).toNat / 128) ∧
      t.PC = s.PC + 2 ∧ ChangesOnly (fun c => c = .v x ∨ c = .v VF ∨ c = .pc) s t)

/-- 41_alu.md R112 (decision D20): Vx = the byte on port rand in this cycle AND kk, for every byte. -/
def Obligations.RandomByteIsMasked : Prop :=
  ∀ (s : State) (x : Reg) (kk : Byte), ∃ t, exec (.rnd x kk) s = .next t ∧
    (∀ k, (t.v x).getLsbD k = (s.rand.getLsbD k && kk.getLsbD k)) ∧
    t.PC = s.PC + 2 ∧ ChangesOnly (fun c => c = .v x ∨ c = .pc) s t

/-- The table of writers of 10_state.md R12 and R13 (decision D29): an instruction changes no V register but those its row of the
table names; VF changes implicitly in six instructions only. -/
def Obligations.RegistersChangeOnlyAsTheTableSays : Prop :=
  ∀ (i : Instr) (s t : State) (r : Reg), exec i s = .next t → t.v r ≠ s.v r → writesReg i r = true

/-! ## Index register and memory -/

/-- 42_index_memory.md R120: I = nnn zero-extended. -/
def Obligations.LoadIndexSetsI : Prop :=
  ∀ (s : State) (nnn : BitVec 12), decodeWord (encNNN 0xA nnn) = some (.ldI nnn) ∧
    ∃ t, exec (.ldI nnn) s = .next t ∧ t.I.toNat = nnn.toNat ∧ t.PC = s.PC + 2 ∧
      ChangesOnly (fun c => c = .index ∨ c = .pc) s t

/-- 42_index_memory.md R121 (untruncated: decision D22): Bnnn loads V0 + nnn into I, untruncated, and does not jump. -/
def Obligations.LoadIndexWithV0DoesNotJump : Prop :=
  ∀ (s : State) (nnn : BitVec 12), ∃ t, exec (.ldIV0 nnn) s = .next t ∧
    t.I.toNat = (s.v 0).toNat + nnn.toNat ∧ t.PC = s.PC + 2 ∧ ChangesOnly (fun c => c = .index ∨ c = .pc) s t

/-- 42_index_memory.md R122 (layout: decision D2; the fault: D11): a hexadecimal digit gives its glyph's address; a larger value is
the fault FontIndexOutOfRange, code 7. -/
def Obligations.FontLookupGivesTheGlyphAddress : Prop :=
  ∀ (s : State) (x : Reg),
    (s.cfg.wf = true → (s.v x).toNat ≤ 15 → ∃ t, exec (.ldFVx x) s = .next t ∧
      t.I.toNat = s.cfg.fontBase + 5 * (s.v x).toNat ∧ t.PC = s.PC + 2 ∧
      ChangesOnly (fun c => c = .index ∨ c = .pc) s t) ∧
    (15 < (s.v x).toNat → ∃ t, exec (.ldFVx x) s = .next t ∧ Raised (.fontIndexOutOfRange (s.v x)) 7 s t)

/-- 42_index_memory.md R123 (where a store is allowed: decisions D7, D8): three digit bytes, hundreds first, at I, I+1, I+2, that
make up Vx; I and every other byte unchanged. -/
def Obligations.BcdStoresThreeDigits : Prop :=
  ∀ (s : State) (x : Reg), storeAllowed s 3 →
    ∃ t, exec (.ldBVx x) s = .next t ∧ t.PC = s.PC + 2 ∧
      100 * (t.readByte s.I.toNat).toNat + 10 * (t.readByte (s.I.toNat + 1)).toNat +
        (t.readByte (s.I.toNat + 2)).toNat = (s.v x).toNat ∧
      (t.readByte s.I.toNat).toNat ≤ 2 ∧ (t.readByte (s.I.toNat + 1)).toNat ≤ 9 ∧
      (t.readByte (s.I.toNat + 2)).toNat ≤ 9 ∧
      ChangesOnly (fun c => c = .pc ∨ ∃ k, k < 3 ∧ c = .cell (s.I.toNat + k)) s t

/-- 42_index_memory.md R124 (I unchanged: decision D22; where a store is allowed: D7, D8): V0 .. Vx at I .. I+x, V0 at the lowest
address; every other byte unchanged. -/
def Obligations.StoreRegistersCopiesV0ToVx : Prop :=
  ∀ (s : State) (x : Reg), storeAllowed s (x.val + 1) →
    ∃ t, exec (.stRegs x) s = .next t ∧ t.PC = s.PC + 2 ∧
      (∀ r : Reg, r ≤ x → t.readByte (s.I.toNat + r.val) = s.v r) ∧
      ChangesOnly (fun c => c = .pc ∨ ∃ k, k ≤ x.val ∧ c = .cell (s.I.toNat + k)) s t

/-- 42_index_memory.md R125 (I unchanged: decision D22; the range: D7): memory at I .. I+x into V0 .. Vx; the registers above Vx and
all of memory unchanged. -/
def Obligations.LoadRegistersCopiesToV0ToVx : Prop :=
  ∀ (s : State) (x : Reg), s.I.toNat + x.val ≤ 0xFFF →
    ∃ t, exec (.ldRegs x) s = .next t ∧ t.PC = s.PC + 2 ∧
      (∀ r : Reg, r ≤ x → t.v r = s.readByte (s.I.toNat + r.val)) ∧
      ChangesOnly (fun c => c = .pc ∨ ∃ r, r ≤ x ∧ c = .v r) s t

/-- 20_memory.md R46, R47 (decisions D7, D8, D18): an access past 0xFFF is the fault MemOutOfRange, code 4, with its last address
(R46, R47) and its first address past 0xFFF (D7) on record (that both are recorded is the model's choice, log 26);
a store in range that meets a glyph byte is FontWrite, code 5, with the first such address `f`; in both cases no byte is read
or written. -/
def Obligations.MemoryAccessFaults : Prop :=
  ∀ (s : State) (x y : Reg) (n : BitVec 4),
    (0xFFF < s.I.toNat + 2 →
      ∃ t, exec (.ldBVx x) s = .next t ∧ Raised (.memOutOfRange (s.I.toNat + 2) (max s.I.toNat 0x1000)) 4 s t) ∧
    (0xFFF < s.I.toNat + x.val →
      (∃ t, exec (.stRegs x) s = .next t ∧ Raised (.memOutOfRange (s.I.toNat + x.val) (max s.I.toNat 0x1000)) 4 s t) ∧
      (∃ t, exec (.ldRegs x) s = .next t ∧ Raised (.memOutOfRange (s.I.toNat + x.val) (max s.I.toNat 0x1000)) 4 s t)) ∧
    (1 ≤ n.toNat → 0xFFF < s.I.toNat + n.toNat - 1 →
      ∃ t, exec (.drw x y n) s = .next t ∧ Raised (.memOutOfRange (s.I.toNat + n.toNat - 1) (max s.I.toNat 0x1000)) 4 s t) ∧
    (∀ f, s.I.toNat ≤ f → inFont s.cfg f = true → (∀ a, s.I.toNat ≤ a → a < f → inFont s.cfg a = false) →
      (s.I.toNat + 2 ≤ 0xFFF → f ≤ s.I.toNat + 2 →
        ∃ t, exec (.ldBVx x) s = .next t ∧ Raised (.fontWrite f) 5 s t) ∧
      (s.I.toNat + x.val ≤ 0xFFF → f ≤ s.I.toNat + x.val →
        ∃ t, exec (.stRegs x) s = .next t ∧ Raised (.fontWrite f) 5 s t))

/-- 42_index_memory.md R124, R125: registers stored by Fx55 come back by Fx65 from any later state with the same memory and I. -/
def Obligations.StoredRegistersLoadBack : Prop :=
  ∀ (s t u : State) (x : Reg), storeAllowed s (x.val + 1) → exec (.stRegs x) s = .next t →
    u.mem = t.mem → u.cfg = t.cfg → u.I = s.I →
    ∃ w, exec (.ldRegs x) u = .next w ∧ ∀ r : Reg, r ≤ x → w.v r = s.v r

/-- 20_memory.md R54 (fetch range: decision D6): bytes Fx55 has stored are what the very next fetch from their address sees:
self-modifying code needs no fence. -/
def Obligations.StoredBytesAreFetched : Prop :=
  ∀ (s : State) (x k : Reg) (h : k.val + 1 < 16), storeAllowed s (x.val + 1) → k.val + 1 ≤ x.val →
    0x200 ≤ s.I.toNat + k.val → s.I.toNat + k.val ≤ 0xFFE →
    ∃ t, exec (.stRegs x) s = .next t ∧
      fetch (t.setPC (BitVec.ofNat 16 (s.I.toNat + k.val))) = .ok (wordOfBytes (s.v k) (s.v ⟨k.val + 1, h⟩))

/-- 10_state.md R14, R17, R18 with 20_memory.md R48 and 43_display.md R144 (conflict C9, decision D22): I, the stack, each timer, the
display and memory are changed only by the instructions the spec names for them, the configuration by none. -/
def Obligations.EveryPieceHasItsWriters : Prop :=
  ∀ (i : Instr) (s t : State), exec i s = .next t →
    (t.I ≠ s.I → (∃ nnn, i = .ldI nnn) ∨ (∃ nnn, i = .ldIV0 nnn) ∨ ∃ x, i = .ldFVx x) ∧
    (t.SP ≠ s.SP ∨ t.stack ≠ s.stack → i = .ret ∨ ∃ nnn, i = .call nnn) ∧
    (t.DT ≠ s.DT → ∃ x, i = .ldDtVx x) ∧
    (t.ST ≠ s.ST → ∃ x, i = .ldStVx x) ∧
    (t.disp ≠ s.disp → i = .cls ∨ ∃ x y n, i = .drw x y n) ∧
    ((∃ a, t.readByte a ≠ s.readByte a) → (∃ x, i = .ldBVx x) ∨ ∃ x, i = .stRegs x) ∧
    t.cfg = s.cfg

/-! ## Display -/

/-- 43_display.md R141: every cell 0, VF unchanged. -/
def Obligations.ClearZeroesTheDisplay : Prop :=
  ∀ s : State, decodeWord 0x00E0 = some .cls ∧
    ∃ t, exec .cls s = .next t ∧ (∀ r c, pixel t.disp r c = false) ∧ t.PC = s.PC + 2 ∧
      ChangesOnly (fun c => c = .pc ∨ ∃ r k, c = .pixel r k) s t

/-- 43_display.md R142, R143 (the range: decision D7; operands latched: D9; grid orientation: D27): Dxyn XORs each cell with the
sprite bit that falls on it, with wrap-around, and VF is 1 exactly when some cell went from 1 to 0. n = 0 draws nothing, makes
no check and clears VF. -/
def Obligations.DrawIsXorWithCollision : Prop :=
  ∀ (s : State) (x y : Reg) (n : BitVec 4), n = 0 ∨ s.I.toNat + n.toNat - 1 ≤ 0xFFF →
    ∃ t, exec (.drw x y n) s = .next t ∧ t.PC = s.PC + 2 ∧
      (∀ r c, pixel t.disp r c = (pixel s.disp r c != spriteCovers s x y n r c)) ∧
      ((t.v VF = 1 ∧ ∃ r c, pixel s.disp r c = true ∧ pixel t.disp r c = false) ∨
        (t.v VF = 0 ∧ ∀ r c, ¬(pixel s.disp r c = true ∧ pixel t.disp r c = false))) ∧
      ChangesOnly (fun c => c = .pc ∨ c = .v VF ∨ ∃ r k, c = .pixel r k) s t

/-- 43_display.md R144: the same sprite drawn twice at the same coordinates restores every cell, whatever the display held, and the
second draw sets VF exactly when a cell under a 1 bit of the sprite was 0 before the first. -/
def Obligations.DrawingTwiceRestoresTheDisplay : Prop :=
  ∀ (s t : State) (x y : Reg) (n : BitVec 4), n = 0 ∨ s.I.toNat + n.toNat - 1 ≤ 0xFFF →
    exec (.drw x y n) s = .next t → t.v x = s.v x → t.v y = s.v y →
    ∃ u, exec (.drw x y n) t = .next u ∧ (∀ r c, pixel u.disp r c = pixel s.disp r c) ∧
      (u.v VF = 1 ↔ ∃ r c, spriteCovers s x y n r c = true ∧ pixel s.disp r c = false)

/-! ## Keys, timers and the two clocks -/

/-- 44_keys_timers.md R150, R151 (the fault: decision D10): the key skips test the sampled level of key Vx; a value above 15 is the
fault KeyIndexOutOfRange, code 6. -/
def Obligations.KeySkipsTestTheSampledLevel : Prop :=
  ∀ (s : State) (x : Reg),
    ((s.v x).toNat ≤ 15 →
      (∃ t, exec (.skp x) s = .next t ∧
        t.PC = (if s.keys.getLsbD (s.v x).toNat then s.PC + 4 else s.PC + 2) ∧ ChangesOnly (· = .pc) s t) ∧
      (∃ t, exec (.sknp x) s = .next t ∧
        t.PC = (if s.keys.getLsbD (s.v x).toNat then s.PC + 2 else s.PC + 4) ∧ ChangesOnly (· = .pc) s t)) ∧
    (15 < (s.v x).toNat →
      (∃ t, exec (.skp x) s = .next t ∧ Raised (.keyIndexOutOfRange (s.v x)) 6 s t) ∧
      (∃ t, exec (.sknp x) s = .next t ∧ Raised (.keyIndexOutOfRange (s.v x)) 6 s t))

/-- 44_keys_timers.md R152 (the smallest of several keys: decision D12): with some key down Fx0A records the smallest pressed key
and advances; with no key down it changes nothing at all. -/
def Obligations.KeyWaitRecordsTheSmallestKey : Prop :=
  ∀ (s : State) (x : Reg),
    (∀ k, k < 16 → s.keys.getLsbD k = true → (∀ j, j < k → s.keys.getLsbD j = false) →
      ∃ t, exec (.ldVxK x) s = .next t ∧ (t.v x).toNat = k ∧ t.PC = s.PC + 2 ∧
        ChangesOnly (fun c => c = .v x ∨ c = .pc) s t) ∧
    ((∀ k, k < 16 → s.keys.getLsbD k = false) → exec (.ldVxK x) s = .next s)

/-- 44_keys_timers.md R152 with 60_exceptions.md R182, R193 (conflict C6): over any sequence of ticks and of cycles with no key
down, a machine at Fx0A stays at it with every register as it was, while the timers count every tick. -/
def Obligations.KeyWaitHoldsWhileTheTimersRun : Prop :=
  ∀ (es rest : List Event) (s : State) (w : Word) (x : Reg),
    (∀ e ∈ es, e = .timerClk ∨ ∃ rand, e = .instrClk 0 rand) →
    s.halted = false → fetch s = .ok w → decodeWord w = some (.ldVxK x) → s.inputs = es ++ rest →
    ∃ t, Host.Core.run core es.length s = .next t ∧ t.inputs = rest ∧
      t.DT.toNat = s.DT.toNat - es.count .timerClk ∧ t.ST.toNat = s.ST.toNat - es.count .timerClk ∧
      ChangesOnly (fun c => c = .dt ∨ c = .st ∨ c = .keys ∨ c = .rand ∨ c = .environment) s t

/-- 44_keys_timers.md R153: Vx = DT, DT not changed by the read. -/
def Obligations.ReadDelayTimer : Prop :=
  ∀ (s : State) (x : Reg), decodeWord (encXKK 0xF x 0x07) = some (.ldVxDt x) ∧
    ∃ t, exec (.ldVxDt x) s = .next t ∧ t.v x = s.DT ∧ t.DT = s.DT ∧ t.PC = s.PC + 2 ∧
      ChangesOnly (fun c => c = .v x ∨ c = .pc) s t

/-- 44_keys_timers.md R154, R155 with 60_exceptions.md R188 (decision D26): DT or ST = Vx, and port sound_on is 1 exactly while ST is
not 0; the clock's phase is not touched. -/
def Obligations.SetTimers : Prop :=
  ∀ (s : State) (x : Reg),
    (∃ t, exec (.ldDtVx x) s = .next t ∧ t.DT = s.v x ∧ t.PC = s.PC + 2 ∧
      ChangesOnly (fun c => c = .dt ∨ c = .pc) s t) ∧
    (∃ t, exec (.ldStVx x) s = .next t ∧ t.ST = s.v x ∧ (portSoundOn t = true ↔ (s.v x).toNat ≠ 0) ∧
      t.PC = s.PC + 2 ∧ ChangesOnly (fun c => c = .st ∨ c = .pc) s t)

/-- 60_exceptions.md R181: a fire of the timer clock is one step, the tick, which takes each timer down by one while above 0 and
changes nothing else. That it does nothing while halted is decision D17 by R186 (log 22); that the fire is the head of the list
`inputs` is the model's form of the environment (log 2). -/
def Obligations.TickCountsBothTimersDown : Prop :=
  ∀ s : State,
    (∀ rest, s.inputs = .timerClk :: rest → step s = timerTick { s with inputs := rest }) ∧
    (s.halted = true → timerTick s = .next s) ∧
    (s.halted = false → ∃ t, timerTick s = .next t ∧
      t.DT.toNat = s.DT.toNat - 1 ∧ t.ST.toNat = s.ST.toNat - 1 ∧ ChangesOnly (fun c => c = .dt ∨ c = .st) s t)

/-- 10_state.md R18, 60_exceptions.md R180, R182: after k ticks a timer holds what it held less k, never below 0: no tick is lost,
merged or applied twice. -/
def Obligations.TimersCountEveryTick : Prop :=
  ∀ (k : Nat) (rest : List Event) (s : State), s.halted = false → s.inputs = List.replicate k .timerClk ++ rest →
    ∃ t, Host.Core.run core k s = .next t ∧ t.inputs = rest ∧
      t.DT.toNat = s.DT.toNat - k ∧ t.ST.toNat = s.ST.toNat - k ∧
      ChangesOnly (fun c => c = .dt ∨ c = .st ∨ c = .environment) s t

/-- 60_exceptions.md R182 with 70_reset_and_hazards.md R207 (decision D19): a tick and an instruction that neither reads nor sets a
timer commute, unless the instruction halts the machine: where the tick falls does not matter to it. -/
def Obligations.TicksCommuteWithOtherInstructions : Prop :=
  ∀ (i : Instr) (s t ticked : State),
    (∀ x, i ≠ .ldVxDt x ∧ i ≠ .ldDtVx x ∧ i ≠ .ldStVx x) → s.halted = false → exec i s = .next t → t.halted = false →
    timerTick s = .next ticked → ∃ u, exec i ticked = .next u ∧ timerTick t = .next u

/-- 60_exceptions.md R185 (decision D19, log 3), and R183's "exactly 60": under the reference schedule, from accumulator 0, the next
INSTR_HZ + 60 steps are counted by the event each takes: exactly 60 are ticks, each taking both timers down by one (and doing
nothing while halted, D17), and the other INSTR_HZ are instruction cycles. The accumulator is back at 0, and each cycle, and no
tick, has advanced `drawIndex` (log 4). `trace j` is the state after j steps. -/
def Obligations.ReferenceScheduleTicksSixtyTimes : Prop :=
  ∀ s : State, 0 < s.cfg.instrHz → s.inputs = [] → s.tickAcc = 0 →
    ∃ trace : Nat → State, trace 0 = s ∧
      (∀ j, j < s.cfg.instrHz + 60 → step (trace j) = .next (trace (j + 1)) ∧
        ((nextEvent (trace j) = .timerClk ∧
            (if (trace j).halted then ChangesOnly (· = .environment) (trace j) (trace (j + 1))
            else (trace (j + 1)).DT.toNat = (trace j).DT.toNat - 1 ∧ (trace (j + 1)).ST.toNat = (trace j).ST.toNat - 1 ∧
              ChangesOnly (fun c => c = .dt ∨ c = .st ∨ c = .environment) (trace j) (trace (j + 1)))) ∨
          ∃ keys rand, nextEvent (trace j) = .instrClk keys rand ∧
            instructionCycle keys rand (consumeEvent (trace j)) = .next (trace (j + 1)))) ∧
      (List.range (s.cfg.instrHz + 60)).countP (fun j => nextEvent (trace j) = .timerClk) = 60 ∧
      (List.range (s.cfg.instrHz + 60)).countP (fun j => nextEvent (trace j) ≠ .timerClk) = s.cfg.instrHz ∧
      (trace (s.cfg.instrHz + 60)).inputs = [] ∧ (trace (s.cfg.instrHz + 60)).tickAcc = 0 ∧
      (trace (s.cfg.instrHz + 60)).drawIndex = s.drawIndex + s.cfg.instrHz

/-- 60_exceptions.md R187 and 41_alu.md R112 (decisions D20, D21): only Ex9E, ExA1 and Fx0A look at the keyboard and only Cxkk at the
random byte: any other instruction does the same whatever they hold. -/
def Obligations.PortsAreSeenOnlyByTheirInstructions : Prop :=
  ∀ (i : Instr) (s t : State) (keys : Keys) (rand : Byte), exec i s = .next t →
    ((∀ x, i ≠ .skp x ∧ i ≠ .sknp x ∧ i ≠ .ldVxK x) → exec i { s with keys := keys } = .next { t with keys := keys }) ∧
    ((∀ x kk, i ≠ .rnd x kk) → exec i { s with rand := rand } = .next { t with rand := rand })

/-- 70_reset_and_hazards.md R210 (decision D28): from the end of a run an instruction cycle changes nothing but the sampled ports,
and it is still the end of the run. -/
def Obligations.EndOfRunIsStable : Prop :=
  ∀ (s : State) (keys : Keys) (rand : Byte), s.endOfRun →
    ∃ t, instructionCycle keys rand s = .next t ∧ t.endOfRun ∧
      ChangesOnly (fun c => c = .keys ∨ c = .rand) s t
end

