-- ==== Sys2Proof/Laws/Decode.lean ====
section
/-! SUPPORT. The fields of an encoded word are the operands it was made from (30_encoding.md R61, R62). -/

namespace Sys2Proof

/-! ### Bits of a concatenation, at the widths of this machine -/

theorem getLsbD_joinWord (a : BitVec 4) (b : BitVec 12) (i : Nat) :
    (joinWord a b).getLsbD i = if i < 12 then b.getLsbD i else a.getLsbD (i - 12) :=
  BitVec.getLsbD_append

theorem getLsbD_joinField (a : BitVec 4) (b : Byte) (i : Nat) :
    (joinField a b).getLsbD i = if i < 8 then b.getLsbD i else a.getLsbD (i - 8) :=
  BitVec.getLsbD_append

theorem getLsbD_joinByte (a b : BitVec 4) (i : Nat) :
    (joinByte a b).getLsbD i = if i < 4 then b.getLsbD i else a.getLsbD (i - 4) :=
  BitVec.getLsbD_append

theorem getLsbD_wordOfBytes (hi lo : Byte) (i : Nat) :
    (wordOfBytes hi lo).getLsbD i = if i < 8 then lo.getLsbD i else hi.getLsbD (i - 8) :=
  BitVec.getLsbD_append

/-! ### Slices of a concatenation -/

@[simp] theorem slice_joinWord_high (a : BitVec 4) (b : BitVec 12) : (joinWord a b).extractLsb' 12 4 = a := by
  apply BitVec.eq_of_getLsbD_eq
  intro i hi
  simp only [BitVec.getLsbD_extractLsb', getLsbD_joinWord, hi, decide_true, Bool.true_and]
  rw [if_neg (by omega), Nat.add_sub_cancel_left]

@[simp] theorem slice_joinWord_low (a : BitVec 4) (b : BitVec 12) (k n : Nat) (h : k + n ≤ 12) :
    (joinWord a b).extractLsb' k n = b.extractLsb' k n := by
  apply BitVec.eq_of_getLsbD_eq
  intro i hi
  simp only [BitVec.getLsbD_extractLsb', getLsbD_joinWord, hi, decide_true, Bool.true_and]
  rw [if_pos (by omega)]

@[simp] theorem slice_joinField_high (a : BitVec 4) (b : Byte) : (joinField a b).extractLsb' 8 4 = a := by
  apply BitVec.eq_of_getLsbD_eq
  intro i hi
  simp only [BitVec.getLsbD_extractLsb', getLsbD_joinField, hi, decide_true, Bool.true_and]
  rw [if_neg (by omega), Nat.add_sub_cancel_left]

@[simp] theorem slice_joinField_low (a : BitVec 4) (b : Byte) (k n : Nat) (h : k + n ≤ 8) :
    (joinField a b).extractLsb' k n = b.extractLsb' k n := by
  apply BitVec.eq_of_getLsbD_eq
  intro i hi
  simp only [BitVec.getLsbD_extractLsb', getLsbD_joinField, hi, decide_true, Bool.true_and]
  rw [if_pos (by omega)]

@[simp] theorem slice_joinByte_high (a b : BitVec 4) : (joinByte a b).extractLsb' 4 4 = a := by
  apply BitVec.eq_of_getLsbD_eq
  intro i hi
  simp only [BitVec.getLsbD_extractLsb', getLsbD_joinByte, hi, decide_true, Bool.true_and]
  rw [if_neg (by omega), Nat.add_sub_cancel_left]

@[simp] theorem slice_joinByte_low (a b : BitVec 4) : (joinByte a b).extractLsb' 0 4 = b := by
  apply BitVec.eq_of_getLsbD_eq
  intro i hi
  simp only [BitVec.getLsbD_extractLsb', getLsbD_joinByte, hi, decide_true, Bool.true_and]
  rw [if_pos (by omega), Nat.zero_add]

/-- A slice of all the bits is the whole. -/
@[simp] theorem slice_whole {n : Nat} (b : BitVec n) : b.extractLsb' 0 n = b := by
  apply BitVec.eq_of_getLsbD_eq
  intro i hi
  simp [hi]

/-! ### The fields of each format -/

variable (op : BitVec 4) (nnn : BitVec 12) (x y : Reg) (kk : Byte) (n : BitVec 4)

@[simp] theorem regBits_toFin : (regBits x).toFin = x := rfl
@[simp] theorem fieldOp_encNNN : fieldOp (encNNN op nnn) = op := by simp [fieldOp, encNNN]
@[simp] theorem fieldNNN_encNNN : fieldNNN (encNNN op nnn) = nnn := by simp [fieldNNN, encNNN]
@[simp] theorem fieldOp_encXKK : fieldOp (encXKK op x kk) = op := by simp [fieldOp, encXKK]
@[simp] theorem fieldX_encXKK : fieldX (encXKK op x kk) = x := by simp [fieldX, encXKK]
@[simp] theorem fieldKK_encXKK : fieldKK (encXKK op x kk) = kk := by simp [fieldKK, encXKK]
@[simp] theorem fieldOp_encXYN : fieldOp (encXYN op x y n) = op := by simp [fieldOp, encXYN]
@[simp] theorem fieldX_encXYN : fieldX (encXYN op x y n) = x := by simp [fieldX, encXYN]
@[simp] theorem fieldY_encXYN : fieldY (encXYN op x y n) = y := by simp [fieldY, encXYN]
@[simp] theorem fieldN_encXYN : fieldN (encXYN op x y n) = n := by simp [fieldN, encXYN]

/-! ### A word is made of its fields -/

theorem word_eq_join (w : Word) : w = joinWord (fieldOp w) (fieldNNN w) := by
  apply BitVec.eq_of_getLsbD_eq
  intro i hi
  rw [getLsbD_joinWord]
  by_cases h : i < 12
  · simp [h, fieldNNN]
  · simp [h, fieldOp, show i - 12 < 4 by omega, show 12 + (i - 12) = i by omega]

theorem fieldNNN_eq_join (w : Word) : fieldNNN w = joinField (regBits (fieldX w)) (fieldKK w) := by
  rw [show regBits (fieldX w) = w.extractLsb' 8 4 from rfl]
  apply BitVec.eq_of_getLsbD_eq
  intro i hi
  rw [getLsbD_joinField]
  by_cases h : i < 8
  · simp [h, fieldNNN, fieldKK, hi]
  · simp [h, fieldNNN, hi, show i - 8 < 4 by omega, show 8 + (i - 8) = i by omega]

theorem fieldKK_eq_join (w : Word) : fieldKK w = joinByte (regBits (fieldY w)) (fieldN w) := by
  rw [show regBits (fieldY w) = w.extractLsb' 4 4 from rfl]
  apply BitVec.eq_of_getLsbD_eq
  intro i hi
  rw [getLsbD_joinByte]
  by_cases h : i < 4
  · simp [h, fieldKK, fieldN, hi]
  · simp [h, fieldKK, hi, show i - 4 < 4 by omega, show 4 + (i - 4) = i by omega]

/-- Any word is in format NNN, XKK and XYN at once; which one an instruction uses is its row's (R61, R62). -/
theorem word_eq_encNNN (w : Word) : w = encNNN (fieldOp w) (fieldNNN w) := word_eq_join w

theorem word_eq_encXKK (w : Word) : w = encXKK (fieldOp w) (fieldX w) (fieldKK w) := by
  rw [encXKK, ← fieldNNN_eq_join, ← word_eq_join]

theorem word_eq_encXYN (w : Word) : w = encXYN (fieldOp w) (fieldX w) (fieldY w) (fieldN w) := by
  rw [encXYN, ← fieldKK_eq_join, ← fieldNNN_eq_join, ← word_eq_join]

/-- The word of the two bytes an instruction is stored as is its word again (20_memory.md R42). -/
@[simp] theorem wordOfBytes_split (w : Word) : wordOfBytes (w.extractLsb' 8 8) (w.extractLsb' 0 8) = w := by
  apply BitVec.eq_of_getLsbD_eq
  intro i hi
  rw [getLsbD_wordOfBytes]
  by_cases h : i < 8
  · simp [h]
  · simp [h, show i - 8 < 8 by omega, show 8 + (i - 8) = i by omega]

end Sys2Proof
end

