-- ==== Sys2Proof/Laws/Display.lean ====
section
/-! SUPPORT. What reading a pixel gives after each display operation (43_display.md R140 to R142). -/

namespace Sys2Proof.Machine

theorem pixel_setPixel (d : Display) (r r' : Fin 32) (c c' : Fin 64) (b : Bool) :
    pixel (setPixel d r c b) r' c' = if r = r' ∧ c = c' then b else pixel d r' c' := by
  by_cases hr : r = r'
  · subst hr
    simp [pixel, setPixel, Vector.getElem_set, Fin.ext_iff]
  · have : r.val ≠ r'.val := fun h => hr (Fin.ext h)
    simp [pixel, setPixel, hr, this]

@[simp] theorem pixel_clearDisplay (r : Fin 32) (c : Fin 64) : pixel clearDisplay r c = false := by
  simp [pixel, clearDisplay]

/-- Two displays with the same pixels are the same display. -/
theorem display_ext {d e : Display} (h : ∀ r c, pixel d r c = pixel e r c) : d = e := by
  ext i hi j hj
  exact h ⟨i, hi⟩ ⟨j, hj⟩

/-- One sprite bit XORs one cell and leaves every other cell alone. -/
theorem drawBit_pixel (d : Draw) (r r' : Fin 32) (c c' : Fin 64) (bit : Bool) :
    pixel (drawBit d r c bit).disp r' c' =
      if r = r' ∧ c = c' then pixel d.disp r c != bit else pixel d.disp r' c' :=
  pixel_setPixel d.disp r r' c c' _

/-- A collision is recorded when the cell goes from 1 to 0, and stays recorded. -/
theorem drawBit_collision (d : Draw) (r : Fin 32) (c : Fin 64) (bit : Bool) :
    (drawBit d r c bit).collision = (d.collision || (pixel d.disp r c && bit)) := rfl

end Sys2Proof.Machine
end

