-- ==== Sys2Proof/Laws/State.lean ====
section
/-! SUPPORT. One lemma per field per update of State, each true by rfl, so that no later proof unfolds a record update; and what
reading a register or a byte of memory gives after each update. -/

namespace Sys2Proof.Machine.State

/-! ### setV -/

@[simp] theorem setV_mem (s : State) (x : Reg) (b : Byte) : (s.setV x b).mem = s.mem := rfl
@[simp] theorem setV_V (s : State) (x : Reg) (b : Byte) : (s.setV x b).V = s.V.set x b := rfl
@[simp] theorem setV_I (s : State) (x : Reg) (b : Byte) : (s.setV x b).I = s.I := rfl
@[simp] theorem setV_PC (s : State) (x : Reg) (b : Byte) : (s.setV x b).PC = s.PC := rfl
@[simp] theorem setV_SP (s : State) (x : Reg) (b : Byte) : (s.setV x b).SP = s.SP := rfl
@[simp] theorem setV_stack (s : State) (x : Reg) (b : Byte) : (s.setV x b).stack = s.stack := rfl
@[simp] theorem setV_DT (s : State) (x : Reg) (b : Byte) : (s.setV x b).DT = s.DT := rfl
@[simp] theorem setV_ST (s : State) (x : Reg) (b : Byte) : (s.setV x b).ST = s.ST := rfl
@[simp] theorem setV_disp (s : State) (x : Reg) (b : Byte) : (s.setV x b).disp = s.disp := rfl
@[simp] theorem setV_halted (s : State) (x : Reg) (b : Byte) : (s.setV x b).halted = s.halted := rfl
@[simp] theorem setV_fault (s : State) (x : Reg) (b : Byte) : (s.setV x b).fault = s.fault := rfl
@[simp] theorem setV_keys (s : State) (x : Reg) (b : Byte) : (s.setV x b).keys = s.keys := rfl
@[simp] theorem setV_rand (s : State) (x : Reg) (b : Byte) : (s.setV x b).rand = s.rand := rfl
@[simp] theorem setV_cfg (s : State) (x : Reg) (b : Byte) : (s.setV x b).cfg = s.cfg := rfl
@[simp] theorem setV_inputs (s : State) (x : Reg) (b : Byte) : (s.setV x b).inputs = s.inputs := rfl
@[simp] theorem setV_tickAcc (s : State) (x : Reg) (b : Byte) : (s.setV x b).tickAcc = s.tickAcc := rfl
@[simp] theorem setV_drawIndex (s : State) (x : Reg) (b : Byte) : (s.setV x b).drawIndex = s.drawIndex := rfl
@[simp] theorem setV_faultRecord (s : State) (x : Reg) (b : Byte) : (s.setV x b).faultRecord = s.faultRecord := rfl
@[simp] theorem setV_v (s : State) (x : Reg) (b : Byte) (y : Reg) :
    (s.setV x b).v y = if x = y then b else s.v y := by
  simp [State.v, Vector.getElem_set, Fin.ext_iff]
@[simp] theorem setV_readByte (s : State) (x : Reg) (b : Byte) (a : Nat) : (s.setV x b).readByte a = s.readByte a := rfl

/-! ### setI -/

@[simp] theorem setI_mem (s : State) (w : Word) : (s.setI w).mem = s.mem := rfl
@[simp] theorem setI_V (s : State) (w : Word) : (s.setI w).V = s.V := rfl
@[simp] theorem setI_I (s : State) (w : Word) : (s.setI w).I = w := rfl
@[simp] theorem setI_PC (s : State) (w : Word) : (s.setI w).PC = s.PC := rfl
@[simp] theorem setI_SP (s : State) (w : Word) : (s.setI w).SP = s.SP := rfl
@[simp] theorem setI_stack (s : State) (w : Word) : (s.setI w).stack = s.stack := rfl
@[simp] theorem setI_DT (s : State) (w : Word) : (s.setI w).DT = s.DT := rfl
@[simp] theorem setI_ST (s : State) (w : Word) : (s.setI w).ST = s.ST := rfl
@[simp] theorem setI_disp (s : State) (w : Word) : (s.setI w).disp = s.disp := rfl
@[simp] theorem setI_halted (s : State) (w : Word) : (s.setI w).halted = s.halted := rfl
@[simp] theorem setI_fault (s : State) (w : Word) : (s.setI w).fault = s.fault := rfl
@[simp] theorem setI_keys (s : State) (w : Word) : (s.setI w).keys = s.keys := rfl
@[simp] theorem setI_rand (s : State) (w : Word) : (s.setI w).rand = s.rand := rfl
@[simp] theorem setI_cfg (s : State) (w : Word) : (s.setI w).cfg = s.cfg := rfl
@[simp] theorem setI_inputs (s : State) (w : Word) : (s.setI w).inputs = s.inputs := rfl
@[simp] theorem setI_tickAcc (s : State) (w : Word) : (s.setI w).tickAcc = s.tickAcc := rfl
@[simp] theorem setI_drawIndex (s : State) (w : Word) : (s.setI w).drawIndex = s.drawIndex := rfl
@[simp] theorem setI_faultRecord (s : State) (w : Word) : (s.setI w).faultRecord = s.faultRecord := rfl
@[simp] theorem setI_v (s : State) (w : Word) (y : Reg) : (s.setI w).v y = s.v y := rfl
@[simp] theorem setI_readByte (s : State) (w : Word) (a : Nat) : (s.setI w).readByte a = s.readByte a := rfl

/-! ### setDT -/

@[simp] theorem setDT_mem (s : State) (b : Byte) : (s.setDT b).mem = s.mem := rfl
@[simp] theorem setDT_V (s : State) (b : Byte) : (s.setDT b).V = s.V := rfl
@[simp] theorem setDT_I (s : State) (b : Byte) : (s.setDT b).I = s.I := rfl
@[simp] theorem setDT_PC (s : State) (b : Byte) : (s.setDT b).PC = s.PC := rfl
@[simp] theorem setDT_SP (s : State) (b : Byte) : (s.setDT b).SP = s.SP := rfl
@[simp] theorem setDT_stack (s : State) (b : Byte) : (s.setDT b).stack = s.stack := rfl
@[simp] theorem setDT_DT (s : State) (b : Byte) : (s.setDT b).DT = b := rfl
@[simp] theorem setDT_ST (s : State) (b : Byte) : (s.setDT b).ST = s.ST := rfl
@[simp] theorem setDT_disp (s : State) (b : Byte) : (s.setDT b).disp = s.disp := rfl
@[simp] theorem setDT_halted (s : State) (b : Byte) : (s.setDT b).halted = s.halted := rfl
@[simp] theorem setDT_fault (s : State) (b : Byte) : (s.setDT b).fault = s.fault := rfl
@[simp] theorem setDT_keys (s : State) (b : Byte) : (s.setDT b).keys = s.keys := rfl
@[simp] theorem setDT_rand (s : State) (b : Byte) : (s.setDT b).rand = s.rand := rfl
@[simp] theorem setDT_cfg (s : State) (b : Byte) : (s.setDT b).cfg = s.cfg := rfl
@[simp] theorem setDT_inputs (s : State) (b : Byte) : (s.setDT b).inputs = s.inputs := rfl
@[simp] theorem setDT_tickAcc (s : State) (b : Byte) : (s.setDT b).tickAcc = s.tickAcc := rfl
@[simp] theorem setDT_drawIndex (s : State) (b : Byte) : (s.setDT b).drawIndex = s.drawIndex := rfl
@[simp] theorem setDT_faultRecord (s : State) (b : Byte) : (s.setDT b).faultRecord = s.faultRecord := rfl
@[simp] theorem setDT_v (s : State) (b : Byte) (y : Reg) : (s.setDT b).v y = s.v y := rfl
@[simp] theorem setDT_readByte (s : State) (b : Byte) (a : Nat) : (s.setDT b).readByte a = s.readByte a := rfl

/-! ### setST -/

@[simp] theorem setST_mem (s : State) (b : Byte) : (s.setST b).mem = s.mem := rfl
@[simp] theorem setST_V (s : State) (b : Byte) : (s.setST b).V = s.V := rfl
@[simp] theorem setST_I (s : State) (b : Byte) : (s.setST b).I = s.I := rfl
@[simp] theorem setST_PC (s : State) (b : Byte) : (s.setST b).PC = s.PC := rfl
@[simp] theorem setST_SP (s : State) (b : Byte) : (s.setST b).SP = s.SP := rfl
@[simp] theorem setST_stack (s : State) (b : Byte) : (s.setST b).stack = s.stack := rfl
@[simp] theorem setST_DT (s : State) (b : Byte) : (s.setST b).DT = s.DT := rfl
@[simp] theorem setST_ST (s : State) (b : Byte) : (s.setST b).ST = b := rfl
@[simp] theorem setST_disp (s : State) (b : Byte) : (s.setST b).disp = s.disp := rfl
@[simp] theorem setST_halted (s : State) (b : Byte) : (s.setST b).halted = s.halted := rfl
@[simp] theorem setST_fault (s : State) (b : Byte) : (s.setST b).fault = s.fault := rfl
@[simp] theorem setST_keys (s : State) (b : Byte) : (s.setST b).keys = s.keys := rfl
@[simp] theorem setST_rand (s : State) (b : Byte) : (s.setST b).rand = s.rand := rfl
@[simp] theorem setST_cfg (s : State) (b : Byte) : (s.setST b).cfg = s.cfg := rfl
@[simp] theorem setST_inputs (s : State) (b : Byte) : (s.setST b).inputs = s.inputs := rfl
@[simp] theorem setST_tickAcc (s : State) (b : Byte) : (s.setST b).tickAcc = s.tickAcc := rfl
@[simp] theorem setST_drawIndex (s : State) (b : Byte) : (s.setST b).drawIndex = s.drawIndex := rfl
@[simp] theorem setST_faultRecord (s : State) (b : Byte) : (s.setST b).faultRecord = s.faultRecord := rfl
@[simp] theorem setST_v (s : State) (b : Byte) (y : Reg) : (s.setST b).v y = s.v y := rfl
@[simp] theorem setST_readByte (s : State) (b : Byte) (a : Nat) : (s.setST b).readByte a = s.readByte a := rfl

/-! ### setDisp -/

@[simp] theorem setDisp_mem (s : State) (d : Display) : (s.setDisp d).mem = s.mem := rfl
@[simp] theorem setDisp_V (s : State) (d : Display) : (s.setDisp d).V = s.V := rfl
@[simp] theorem setDisp_I (s : State) (d : Display) : (s.setDisp d).I = s.I := rfl
@[simp] theorem setDisp_PC (s : State) (d : Display) : (s.setDisp d).PC = s.PC := rfl
@[simp] theorem setDisp_SP (s : State) (d : Display) : (s.setDisp d).SP = s.SP := rfl
@[simp] theorem setDisp_stack (s : State) (d : Display) : (s.setDisp d).stack = s.stack := rfl
@[simp] theorem setDisp_DT (s : State) (d : Display) : (s.setDisp d).DT = s.DT := rfl
@[simp] theorem setDisp_ST (s : State) (d : Display) : (s.setDisp d).ST = s.ST := rfl
@[simp] theorem setDisp_disp (s : State) (d : Display) : (s.setDisp d).disp = d := rfl
@[simp] theorem setDisp_halted (s : State) (d : Display) : (s.setDisp d).halted = s.halted := rfl
@[simp] theorem setDisp_fault (s : State) (d : Display) : (s.setDisp d).fault = s.fault := rfl
@[simp] theorem setDisp_keys (s : State) (d : Display) : (s.setDisp d).keys = s.keys := rfl
@[simp] theorem setDisp_rand (s : State) (d : Display) : (s.setDisp d).rand = s.rand := rfl
@[simp] theorem setDisp_cfg (s : State) (d : Display) : (s.setDisp d).cfg = s.cfg := rfl
@[simp] theorem setDisp_inputs (s : State) (d : Display) : (s.setDisp d).inputs = s.inputs := rfl
@[simp] theorem setDisp_tickAcc (s : State) (d : Display) : (s.setDisp d).tickAcc = s.tickAcc := rfl
@[simp] theorem setDisp_drawIndex (s : State) (d : Display) : (s.setDisp d).drawIndex = s.drawIndex := rfl
@[simp] theorem setDisp_faultRecord (s : State) (d : Display) : (s.setDisp d).faultRecord = s.faultRecord := rfl
@[simp] theorem setDisp_v (s : State) (d : Display) (y : Reg) : (s.setDisp d).v y = s.v y := rfl
@[simp] theorem setDisp_readByte (s : State) (d : Display) (a : Nat) : (s.setDisp d).readByte a = s.readByte a := rfl

/-! ### setMem -/

@[simp] theorem setMem_mem (s : State) (m : Memory) : (s.setMem m).mem = m := rfl
@[simp] theorem setMem_V (s : State) (m : Memory) : (s.setMem m).V = s.V := rfl
@[simp] theorem setMem_I (s : State) (m : Memory) : (s.setMem m).I = s.I := rfl
@[simp] theorem setMem_PC (s : State) (m : Memory) : (s.setMem m).PC = s.PC := rfl
@[simp] theorem setMem_SP (s : State) (m : Memory) : (s.setMem m).SP = s.SP := rfl
@[simp] theorem setMem_stack (s : State) (m : Memory) : (s.setMem m).stack = s.stack := rfl
@[simp] theorem setMem_DT (s : State) (m : Memory) : (s.setMem m).DT = s.DT := rfl
@[simp] theorem setMem_ST (s : State) (m : Memory) : (s.setMem m).ST = s.ST := rfl
@[simp] theorem setMem_disp (s : State) (m : Memory) : (s.setMem m).disp = s.disp := rfl
@[simp] theorem setMem_halted (s : State) (m : Memory) : (s.setMem m).halted = s.halted := rfl
@[simp] theorem setMem_fault (s : State) (m : Memory) : (s.setMem m).fault = s.fault := rfl
@[simp] theorem setMem_keys (s : State) (m : Memory) : (s.setMem m).keys = s.keys := rfl
@[simp] theorem setMem_rand (s : State) (m : Memory) : (s.setMem m).rand = s.rand := rfl
@[simp] theorem setMem_cfg (s : State) (m : Memory) : (s.setMem m).cfg = s.cfg := rfl
@[simp] theorem setMem_inputs (s : State) (m : Memory) : (s.setMem m).inputs = s.inputs := rfl
@[simp] theorem setMem_tickAcc (s : State) (m : Memory) : (s.setMem m).tickAcc = s.tickAcc := rfl
@[simp] theorem setMem_drawIndex (s : State) (m : Memory) : (s.setMem m).drawIndex = s.drawIndex := rfl
@[simp] theorem setMem_faultRecord (s : State) (m : Memory) : (s.setMem m).faultRecord = s.faultRecord := rfl
@[simp] theorem setMem_v (s : State) (m : Memory) (y : Reg) : (s.setMem m).v y = s.v y := rfl
@[simp] theorem setMem_readByte (s : State) (m : Memory) (a : Nat) : (s.setMem m).readByte a = m.read s.cfg a := rfl

/-! ### setPC -/

@[simp] theorem setPC_mem (s : State) (w : Word) : (s.setPC w).mem = s.mem := rfl
@[simp] theorem setPC_V (s : State) (w : Word) : (s.setPC w).V = s.V := rfl
@[simp] theorem setPC_I (s : State) (w : Word) : (s.setPC w).I = s.I := rfl
@[simp] theorem setPC_PC (s : State) (w : Word) : (s.setPC w).PC = w := rfl
@[simp] theorem setPC_SP (s : State) (w : Word) : (s.setPC w).SP = s.SP := rfl
@[simp] theorem setPC_stack (s : State) (w : Word) : (s.setPC w).stack = s.stack := rfl
@[simp] theorem setPC_DT (s : State) (w : Word) : (s.setPC w).DT = s.DT := rfl
@[simp] theorem setPC_ST (s : State) (w : Word) : (s.setPC w).ST = s.ST := rfl
@[simp] theorem setPC_disp (s : State) (w : Word) : (s.setPC w).disp = s.disp := rfl
@[simp] theorem setPC_halted (s : State) (w : Word) : (s.setPC w).halted = s.halted := rfl
@[simp] theorem setPC_fault (s : State) (w : Word) : (s.setPC w).fault = s.fault := rfl
@[simp] theorem setPC_keys (s : State) (w : Word) : (s.setPC w).keys = s.keys := rfl
@[simp] theorem setPC_rand (s : State) (w : Word) : (s.setPC w).rand = s.rand := rfl
@[simp] theorem setPC_cfg (s : State) (w : Word) : (s.setPC w).cfg = s.cfg := rfl
@[simp] theorem setPC_inputs (s : State) (w : Word) : (s.setPC w).inputs = s.inputs := rfl
@[simp] theorem setPC_tickAcc (s : State) (w : Word) : (s.setPC w).tickAcc = s.tickAcc := rfl
@[simp] theorem setPC_drawIndex (s : State) (w : Word) : (s.setPC w).drawIndex = s.drawIndex := rfl
@[simp] theorem setPC_faultRecord (s : State) (w : Word) : (s.setPC w).faultRecord = s.faultRecord := rfl
@[simp] theorem setPC_v (s : State) (w : Word) (y : Reg) : (s.setPC w).v y = s.v y := rfl
@[simp] theorem setPC_readByte (s : State) (w : Word) (a : Nat) : (s.setPC w).readByte a = s.readByte a := rfl

/-! ### advance -/

@[simp] theorem advance_mem (s : State) : (s.advance).mem = s.mem := rfl
@[simp] theorem advance_V (s : State) : (s.advance).V = s.V := rfl
@[simp] theorem advance_I (s : State) : (s.advance).I = s.I := rfl
@[simp] theorem advance_PC (s : State) : (s.advance).PC = s.PC + 2 := rfl
@[simp] theorem advance_SP (s : State) : (s.advance).SP = s.SP := rfl
@[simp] theorem advance_stack (s : State) : (s.advance).stack = s.stack := rfl
@[simp] theorem advance_DT (s : State) : (s.advance).DT = s.DT := rfl
@[simp] theorem advance_ST (s : State) : (s.advance).ST = s.ST := rfl
@[simp] theorem advance_disp (s : State) : (s.advance).disp = s.disp := rfl
@[simp] theorem advance_halted (s : State) : (s.advance).halted = s.halted := rfl
@[simp] theorem advance_fault (s : State) : (s.advance).fault = s.fault := rfl
@[simp] theorem advance_keys (s : State) : (s.advance).keys = s.keys := rfl
@[simp] theorem advance_rand (s : State) : (s.advance).rand = s.rand := rfl
@[simp] theorem advance_cfg (s : State) : (s.advance).cfg = s.cfg := rfl
@[simp] theorem advance_inputs (s : State) : (s.advance).inputs = s.inputs := rfl
@[simp] theorem advance_tickAcc (s : State) : (s.advance).tickAcc = s.tickAcc := rfl
@[simp] theorem advance_drawIndex (s : State) : (s.advance).drawIndex = s.drawIndex := rfl
@[simp] theorem advance_faultRecord (s : State) : (s.advance).faultRecord = s.faultRecord := rfl
@[simp] theorem advance_v (s : State) (y : Reg) : (s.advance).v y = s.v y := rfl
@[simp] theorem advance_readByte (s : State) (a : Nat) : (s.advance).readByte a = s.readByte a := rfl

/-! ### skipIf -/

@[simp] theorem skipIf_mem (s : State) (c : Bool) : (s.skipIf c).mem = s.mem := rfl
@[simp] theorem skipIf_V (s : State) (c : Bool) : (s.skipIf c).V = s.V := rfl
@[simp] theorem skipIf_I (s : State) (c : Bool) : (s.skipIf c).I = s.I := rfl
@[simp] theorem skipIf_PC (s : State) (c : Bool) : (s.skipIf c).PC = if c then s.PC + 4 else s.PC + 2 := rfl
@[simp] theorem skipIf_SP (s : State) (c : Bool) : (s.skipIf c).SP = s.SP := rfl
@[simp] theorem skipIf_stack (s : State) (c : Bool) : (s.skipIf c).stack = s.stack := rfl
@[simp] theorem skipIf_DT (s : State) (c : Bool) : (s.skipIf c).DT = s.DT := rfl
@[simp] theorem skipIf_ST (s : State) (c : Bool) : (s.skipIf c).ST = s.ST := rfl
@[simp] theorem skipIf_disp (s : State) (c : Bool) : (s.skipIf c).disp = s.disp := rfl
@[simp] theorem skipIf_halted (s : State) (c : Bool) : (s.skipIf c).halted = s.halted := rfl
@[simp] theorem skipIf_fault (s : State) (c : Bool) : (s.skipIf c).fault = s.fault := rfl
@[simp] theorem skipIf_keys (s : State) (c : Bool) : (s.skipIf c).keys = s.keys := rfl
@[simp] theorem skipIf_rand (s : State) (c : Bool) : (s.skipIf c).rand = s.rand := rfl
@[simp] theorem skipIf_cfg (s : State) (c : Bool) : (s.skipIf c).cfg = s.cfg := rfl
@[simp] theorem skipIf_inputs (s : State) (c : Bool) : (s.skipIf c).inputs = s.inputs := rfl
@[simp] theorem skipIf_tickAcc (s : State) (c : Bool) : (s.skipIf c).tickAcc = s.tickAcc := rfl
@[simp] theorem skipIf_drawIndex (s : State) (c : Bool) : (s.skipIf c).drawIndex = s.drawIndex := rfl
@[simp] theorem skipIf_faultRecord (s : State) (c : Bool) : (s.skipIf c).faultRecord = s.faultRecord := rfl
@[simp] theorem skipIf_v (s : State) (c : Bool) (y : Reg) : (s.skipIf c).v y = s.v y := rfl
@[simp] theorem skipIf_readByte (s : State) (c : Bool) (a : Nat) : (s.skipIf c).readByte a = s.readByte a := rfl

/-! ### sample -/

@[simp] theorem sample_mem (s : State) (k : Keys) (r : Byte) : (s.sample k r).mem = s.mem := rfl
@[simp] theorem sample_V (s : State) (k : Keys) (r : Byte) : (s.sample k r).V = s.V := rfl
@[simp] theorem sample_I (s : State) (k : Keys) (r : Byte) : (s.sample k r).I = s.I := rfl
@[simp] theorem sample_PC (s : State) (k : Keys) (r : Byte) : (s.sample k r).PC = s.PC := rfl
@[simp] theorem sample_SP (s : State) (k : Keys) (r : Byte) : (s.sample k r).SP = s.SP := rfl
@[simp] theorem sample_stack (s : State) (k : Keys) (r : Byte) : (s.sample k r).stack = s.stack := rfl
@[simp] theorem sample_DT (s : State) (k : Keys) (r : Byte) : (s.sample k r).DT = s.DT := rfl
@[simp] theorem sample_ST (s : State) (k : Keys) (r : Byte) : (s.sample k r).ST = s.ST := rfl
@[simp] theorem sample_disp (s : State) (k : Keys) (r : Byte) : (s.sample k r).disp = s.disp := rfl
@[simp] theorem sample_halted (s : State) (k : Keys) (r : Byte) : (s.sample k r).halted = s.halted := rfl
@[simp] theorem sample_fault (s : State) (k : Keys) (r : Byte) : (s.sample k r).fault = s.fault := rfl
@[simp] theorem sample_keys (s : State) (k : Keys) (r : Byte) : (s.sample k r).keys = k := rfl
@[simp] theorem sample_rand (s : State) (k : Keys) (r : Byte) : (s.sample k r).rand = r := rfl
@[simp] theorem sample_cfg (s : State) (k : Keys) (r : Byte) : (s.sample k r).cfg = s.cfg := rfl
@[simp] theorem sample_inputs (s : State) (k : Keys) (r : Byte) : (s.sample k r).inputs = s.inputs := rfl
@[simp] theorem sample_tickAcc (s : State) (k : Keys) (r : Byte) : (s.sample k r).tickAcc = s.tickAcc := rfl
@[simp] theorem sample_drawIndex (s : State) (k : Keys) (r : Byte) : (s.sample k r).drawIndex = s.drawIndex := rfl
@[simp] theorem sample_faultRecord (s : State) (k : Keys) (r : Byte) : (s.sample k r).faultRecord = s.faultRecord := rfl
@[simp] theorem sample_v (s : State) (k : Keys) (r : Byte) (y : Reg) : (s.sample k r).v y = s.v y := rfl
@[simp] theorem sample_readByte (s : State) (k : Keys) (r : Byte) (a : Nat) : (s.sample k r).readByte a = s.readByte a := rfl

/-! ### Right after reset -/

@[simp] theorem reset_v (x : Reg) : reset.v x = 0 := by simp [State.v, reset]
@[simp] theorem reset_readByte (a : Nat) : reset.readByte a = resetByte defaultConfig a := rfl

end Sys2Proof.Machine.State
end

