-- ==== Sys2Proof/Laws/Memory.lean ====
section
/-! SUPPORT. The laws of memory: what a byte reads as after a write, and that every memory operation keeps the canonical form. -/

namespace Sys2Proof.Machine.Memory

variable (cfg : Config)

@[simp] theorem read_nil (a : Nat) : Memory.read cfg [] a = resetByte cfg a := rfl

@[simp] theorem read_cons (k : Nat) (b : Byte) (rest : Memory) (a : Nat) :
    Memory.read cfg ((k, b) :: rest) a = if a = k then b else Memory.read cfg rest a := rfl

theorem read_insert (m : Memory) (a : Nat) (b : Byte) (a' : Nat) :
    (m.insert a b).read cfg a' = if a' = a then b else m.read cfg a' := by
  induction m with
  | nil => rfl
  | cons c rest ih =>
    obtain ⟨k, d⟩ := c
    unfold Memory.insert
    split
    · simp
    · split
      · subst a; by_cases h : a' = k <;> simp [h]
      · by_cases h : a' = k
        · subst h; simp; omega
        · simp [h, ih]

theorem read_erase (m : Memory) (a a' : Nat) :
    (m.erase a).read cfg a' = if a' = a then resetByte cfg a else m.read cfg a' := by
  induction m with
  | nil => by_cases h : a' = a <;> simp [Memory.erase, h]
  | cons c rest ih =>
    obtain ⟨k, d⟩ := c
    unfold Memory.erase
    split
    · subst a
      rw [ih, read_cons]
      by_cases h : a' = k <;> simp [h]
    · by_cases h : a' = k
      · subst h; simp; omega
      · simp [h, ih]

/-- A read after a write gives the value written, and a write leaves every other address alone. -/
theorem read_write (m : Memory) (a : Nat) (b : Byte) (a' : Nat) :
    (m.write cfg a b).read cfg a' = if a' = a then b else m.read cfg a' := by
  unfold Memory.write
  split
  · simp [read_erase, *]
  · exact read_insert cfg m a b a'

/-- The same for a run of bytes (20_memory.md R47). -/
theorem read_writeBytes (bs : List Byte) : ∀ (m : Memory) (a a' : Nat),
    (writeBytes cfg m a bs).read cfg a' =
      if h : a ≤ a' ∧ a' < a + bs.length then bs[a' - a]'(by omega) else m.read cfg a' := by
  induction bs with
  | nil => intro m a a'; rw [dif_neg (by simp only [List.length_nil]; omega)]; rfl
  | cons b bs ih =>
    intro m a a'
    rw [writeBytes, ih]
    by_cases h : a + 1 ≤ a' ∧ a' < a + 1 + bs.length
    · have h' : a ≤ a' ∧ a' < a + (b :: bs).length := by simp; omega
      obtain ⟨k, hk⟩ : ∃ k, a' - a = k + 1 := ⟨a' - a - 1, by omega⟩
      have hk' : a' - (a + 1) = k := by omega
      rw [dif_pos h, dif_pos h']
      simp [hk, hk']
    · rw [dif_neg h, read_write]
      by_cases h2 : a' = a
      · subst h2; simp
      · rw [if_neg h2, dif_neg (by simp; omega)]

/-! ### The canonical form -/

theorem wf_cons {a : Nat} {b : Byte} {rest : Memory} :
    Memory.wf cfg ((a, b) :: rest) = true ↔
      a < memSize ∧ b ≠ resetByte cfg a ∧ (∀ c ∈ rest, a < c.1) ∧ Memory.wf cfg rest = true := by
  simp [Memory.wf, and_assoc]

theorem mem_insert_fst {m : Memory} {a : Nat} {b : Byte} {c : Host.Cell} (h : c ∈ m.insert a b) :
    c.1 = a ∨ c ∈ m := by
  induction m with
  | nil => simp [Memory.insert] at h; simp [h]
  | cons d rest ih =>
    obtain ⟨k, e⟩ := d
    unfold Memory.insert at h
    split at h
    · simp at h; rcases h with h | h | h <;> simp [h]
    · split at h
      · simp at h; rcases h with h | h <;> simp [h]
      · simp at h
        rcases h with h | h
        · simp [h]
        · rcases ih h with h | h <;> simp [h]

theorem mem_of_mem_erase {m : Memory} {a : Nat} {c : Host.Cell} (h : c ∈ m.erase a) : c ∈ m := by
  induction m with
  | nil => simp [Memory.erase] at h
  | cons d rest ih =>
    obtain ⟨k, e⟩ := d
    unfold Memory.erase at h
    split at h
    · exact List.mem_cons_of_mem _ (ih h)
    · rcases List.mem_cons.mp h with h | h
      · simp [h]
      · exact List.mem_cons_of_mem _ (ih h)

theorem wf_insert {m : Memory} {a : Nat} {b : Byte} (hm : m.wf cfg = true) (ha : a < memSize)
    (hb : b ≠ resetByte cfg a) : (m.insert a b).wf cfg = true := by
  induction m with
  | nil => exact (wf_cons cfg).mpr ⟨ha, hb, by simp, rfl⟩
  | cons d rest ih =>
    obtain ⟨k, e⟩ := d
    obtain ⟨hk, he, hlt, hr⟩ := (wf_cons cfg).mp hm
    unfold Memory.insert
    split
    · refine (wf_cons cfg).mpr ⟨ha, hb, ?_, hm⟩
      intro c hc
      rcases List.mem_cons.mp hc with rfl | hc
      · assumption
      · have := hlt c hc; omega
    · split
      · subst a; exact (wf_cons cfg).mpr ⟨hk, hb, hlt, hr⟩
      · refine (wf_cons cfg).mpr ⟨hk, he, ?_, ih hr⟩
        intro c hc
        rcases mem_insert_fst hc with hc | hc
        · omega
        · exact hlt c hc

theorem wf_erase {m : Memory} {a : Nat} (hm : m.wf cfg = true) : (m.erase a).wf cfg = true := by
  induction m with
  | nil => rfl
  | cons d rest ih =>
    obtain ⟨k, e⟩ := d
    obtain ⟨hk, he, hlt, hr⟩ := (wf_cons cfg).mp hm
    unfold Memory.erase
    split
    · exact ih hr
    · exact (wf_cons cfg).mpr ⟨hk, he, fun c hc => hlt c (mem_of_mem_erase hc), ih hr⟩

theorem wf_write {m : Memory} {a : Nat} {b : Byte} (hm : m.wf cfg = true) (ha : a < memSize) :
    (m.write cfg a b).wf cfg = true := by
  unfold Memory.write
  split
  · exact wf_erase cfg hm
  · exact wf_insert cfg hm ha ‹_›

theorem wf_writeBytes (bs : List Byte) : ∀ {m : Memory} {a : Nat}, m.wf cfg = true → a + bs.length ≤ memSize →
    (writeBytes cfg m a bs).wf cfg = true := by
  induction bs with
  | nil => intro m a hm _; exact hm
  | cons b bs ih =>
    intro m a hm ha
    simp at ha
    exact ih (wf_write cfg hm (by omega)) (by omega)

end Sys2Proof.Machine.Memory

namespace Sys2Proof.Machine

/-- Memory right after reset has the canonical form. -/
theorem reset_mem_wf : Memory.wf State.reset.cfg State.reset.mem = true := rfl

end Sys2Proof.Machine
end

