-- ==== Sys2Proof/Laws/Ops.lean ====
section
/-! SUPPORT. For each shared operation one lemma that says once everything it can do. -/

namespace Sys2Proof.Machine

/-! ### Faults -/

/-- Taking a fault changes the fault status and nothing else (60_exceptions.md R172). -/
theorem raise_eq (c : FaultCause) (s : State) :
    raise c s = .next { s with halted := true, fault := faultCode c, faultRecord := some c } := rfl

@[simp] theorem orRaise_ok {α : Type} (s : State) (a : α) (k : α → Result) : orRaise s (.ok a) k = k a := rfl

@[simp] theorem orRaise_error {α : Type} (s : State) (c : FaultCause) (k : α → Result) :
    orRaise s (.error c) k = raise c s := rfl

/-- A checked operation goes on with the value of its check, or takes the fault the check found. -/
theorem orRaise_cases {α : Type} {s t : State} {r : Except FaultCause α} {k : α → Result} (h : orRaise s r k = .next t) :
    (∃ a, r = .ok a ∧ k a = .next t) ∨
      (∃ c, r = .error c ∧ t = { s with halted := true, fault := faultCode c, faultRecord := some c }) := by
  cases r with
  | ok a => exact .inl ⟨a, rfl, h⟩
  | error c => cases h; exact .inr ⟨c, rfl, rfl⟩

/-- No fault has code 0: code 0 means none (R170). -/
theorem faultCode_ne_zero (c : FaultCause) : faultCode c ≠ 0 := by cases c <;> simp [faultCode]

/-! ### The call stack -/

theorem push_ok {s : State} {ret : Word} (h : s.SP.val < 16) :
    push s ret = .ok { s with stack := s.stack.set s.SP.val ret, SP := ⟨s.SP.val + 1, by omega⟩ } := by
  simp [push, h]

theorem push_full {s : State} {ret : Word} (h : s.SP = 16) : push s ret = .error (.stackOverflow s.PC) := by
  rw [push, dif_neg (by rw [h]; decide)]

theorem pop_ok {s : State} (h : 0 < s.SP.val) :
    pop s = .ok (s.stack[s.SP.val - 1], { s with SP := ⟨s.SP.val - 1, by omega⟩ }) := by
  simp [pop, h]

theorem pop_empty {s : State} (h : s.SP = 0) : pop s = .error (.stackUnderflow s.PC) := by
  simp [pop, h]

/-! ### Memory accesses -/

@[simp] theorem readBytes_length (s : State) : ∀ a n : Nat, (readBytes s a n).length = n
  | _, 0 => rfl
  | a, n + 1 => by simp [readBytes, readBytes_length s (a + 1) n]

theorem readBytes_getElem (s : State) : ∀ (a n k : Nat) (h : k < (readBytes s a n).length),
    (readBytes s a n)[k] = s.readByte (a + k)
  | a, n + 1, 0, _ => rfl
  | a, n + 1, k + 1, h => by
    have := readBytes_getElem s (a + 1) n k (by simpa [readBytes] using h)
    simp only [readBytes, List.getElem_cons_succ, this]
    congr 1; omega

theorem memRead_ok {s : State} {a n : Nat} (h : n = 0 ∨ a + n - 1 ≤ 0xFFF) : memRead s a n = .ok (readBytes s a n) := by
  unfold memRead
  split
  · subst n; rfl
  · rw [if_neg (by omega)]

/-- The fault's two addresses, the first one past 0xFFF by cases. -/
theorem outOfRange_eq (a n : Nat) :
    outOfRange a n = .memOutOfRange (a + n - 1) (if a ≤ 0xFFF then 0x1000 else a) := by
  simp only [outOfRange, memSize, FaultCause.memOutOfRange.injEq, true_and]
  split <;> omega

theorem memRead_error {s : State} {a n : Nat} (hn : n ≠ 0) (h : 0xFFF < a + n - 1) :
    memRead s a n = .error (outOfRange a n) := by
  rw [memRead, if_neg hn, if_pos h]

/-- No address of the range holds a glyph byte exactly when the first such address does not exist. -/
theorem firstFontAddr_none {cfg : Config} : ∀ {a n : Nat},
    firstFontAddr cfg a n = none ↔ ∀ b, a ≤ b → b < a + n → inFont cfg b = false
  | a, 0 => by simp [firstFontAddr]; omega
  | a, n + 1 => by
    unfold firstFontAddr
    cases ha : inFont cfg a with
    | true =>
      simp only [if_true, reduceCtorEq, false_iff]
      intro h; simpa [ha] using h a (by omega) (by omega)
    | false =>
      simp only [Bool.false_eq_true, if_false, firstFontAddr_none (a := a + 1) (n := n)]
      constructor
      · intro h b h1 h2
        by_cases hb : b = a
        · exact hb ▸ ha
        · exact h b (by omega) (by omega)
      · intro h b h1 h2; exact h b (by omega) (by omega)

theorem memWrite_ok {s : State} {a : Nat} {bs : List Byte} (h : a + bs.length - 1 ≤ 0xFFF)
    (hf : firstFontAddr s.cfg a bs.length = none) :
    memWrite s a bs = .ok (s.setMem (writeBytes s.cfg s.mem a bs)) := by
  rw [memWrite, if_neg (by omega), hf]

/-- A store that succeeds changed memory only; the whole range lies in memory and off the glyph bytes (20_memory.md R47). -/
theorem memWrite_cases {s : State} {a : Nat} {bs : List Byte} {r : Except FaultCause State} (h : memWrite s a bs = r) :
    (a + bs.length - 1 ≤ 0xFFF ∧ firstFontAddr s.cfg a bs.length = none ∧
        r = .ok (s.setMem (writeBytes s.cfg s.mem a bs))) ∨
      (0xFFF < a + bs.length - 1 ∧ r = .error (outOfRange a bs.length)) ∨
      (a + bs.length - 1 ≤ 0xFFF ∧ ∃ f, firstFontAddr s.cfg a bs.length = some f ∧ r = .error (.fontWrite f)) := by
  subst h
  unfold memWrite
  split
  · exact .inr (.inl ⟨‹_›, rfl⟩)
  · split
    · exact .inr (.inr ⟨by omega, _, ‹_›, rfl⟩)
    · exact .inl ⟨by omega, ‹_›, rfl⟩

/-- A block load sets exactly the registers from `k` on that it has bytes for (42_index_memory.md R125). -/
theorem loadFrom_getElem (bs : List Byte) : ∀ (V : Vector Byte 16) (k : Nat) (y : Reg),
    (loadFrom V k bs)[y] = if h : k ≤ y.val ∧ y.val < k + bs.length then bs[y.val - k]'(by omega) else V[y] := by
  induction bs with
  | nil => intro V k y; rw [dif_neg (by simp only [List.length_nil]; omega)]; rfl
  | cons b bs ih =>
    intro V k y
    rw [loadFrom, ih]
    by_cases h : k + 1 ≤ y.val ∧ y.val < k + 1 + bs.length
    · have h' : k ≤ y.val ∧ y.val < k + (b :: bs).length := by simp; omega
      obtain ⟨j, hj⟩ : ∃ j, y.val - k = j + 1 := ⟨y.val - k - 1, by omega⟩
      have hj' : y.val - (k + 1) = j := by omega
      rw [dif_pos h, dif_pos h']
      simp [hj, hj']
    · rw [dif_neg h]
      by_cases h2 : k = y.val
      · subst h2; simp
      · rw [dif_neg (by simp; omega)]
        simp [h2]

theorem regsThrough_length (s : State) (x : Reg) : (regsThrough s x).length = x.val + 1 := by
  simp only [regsThrough, List.length_take, Vector.length_toList]; omega

theorem regsThrough_getElem (s : State) (x : Reg) (k : Nat) (h : k < (regsThrough s x).length) :
    (regsThrough s x)[k] = s.v ⟨k, by rw [regsThrough_length] at h; omega⟩ := by
  simp [regsThrough, State.v]

/-! ### Operands -/

theorem keyOperand_ok {s : State} {x : Reg} (h : (s.v x).toNat < 16) : keyOperand s x = .ok ⟨(s.v x).toNat, h⟩ := by
  simp [keyOperand, h]

theorem keyOperand_error {s : State} {x : Reg} (h : 16 ≤ (s.v x).toNat) :
    keyOperand s x = .error (.keyIndexOutOfRange (s.v x)) := by
  rw [keyOperand, dif_neg (by omega)]

theorem fontOperand_ok {s : State} {x : Reg} (h : (s.v x).toNat < 16) : fontOperand s x = .ok ⟨(s.v x).toNat, h⟩ := by
  simp [fontOperand, h]

theorem fontOperand_error {s : State} {x : Reg} (h : 16 ≤ (s.v x).toNat) :
    fontOperand s x = .error (.fontIndexOutOfRange (s.v x)) := by
  rw [fontOperand, dif_neg (by omega)]

/-- The search finds the smallest pressed key of its range, and nothing exactly when none is pressed (44_keys_timers.md R152). -/
theorem lowestKeyFrom_some {keys : Keys} : ∀ {k n j : Nat}, lowestKeyFrom keys k n = some j →
    k ≤ j ∧ j < k + n ∧ keys.getLsbD j = true ∧ ∀ i, k ≤ i → i < j → keys.getLsbD i = false
  | k, n + 1, j, h => by
    unfold lowestKeyFrom at h
    split at h
    · cases h; exact ⟨by omega, by omega, ‹_›, fun i h1 h2 => by omega⟩
    · obtain ⟨h1, h2, h3, h4⟩ := lowestKeyFrom_some h
      refine ⟨by omega, by omega, h3, fun i hi hj => ?_⟩
      by_cases hik : i = k
      · subst hik; exact Bool.eq_false_iff.mpr ‹_›
      · exact h4 i (by omega) hj

theorem lowestKeyFrom_none {keys : Keys} : ∀ {k n : Nat},
    lowestKeyFrom keys k n = none ↔ ∀ i, k ≤ i → i < k + n → keys.getLsbD i = false
  | k, 0 => by simp [lowestKeyFrom]; omega
  | k, n + 1 => by
    unfold lowestKeyFrom
    cases hk : keys.getLsbD k with
    | true =>
      simp only [if_true, reduceCtorEq, false_iff]
      intro h; simpa [hk] using h k (by omega) (by omega)
    | false =>
      simp only [Bool.false_eq_true, if_false, lowestKeyFrom_none (k := k + 1) (n := n)]
      constructor
      · intro h i h1 h2
        by_cases hi : i = k
        · exact hi ▸ hk
        · exact h i (by omega) (by omega)
      · intro h i h1 h2; exact h i (by omega) (by omega)

/-! ### Writing a result with its flag (41_alu.md R100) -/

@[simp] theorem writeResultThenFlag_v (s : State) (x : Reg) (res : Byte) (c : Bool) (y : Reg) :
    (writeResultThenFlag s x res c).v y = if VF = y then flagByte c else if x = y then res else s.v y := by
  simp [writeResultThenFlag]

@[simp] theorem writeFlagThenResult_v (s : State) (x : Reg) (res : Byte) (c : Bool) (y : Reg) :
    (writeFlagThenResult s x res c).v y = if x = y then res else if VF = y then flagByte c else s.v y := by
  simp [writeFlagThenResult]

@[simp] theorem writeResultThenFlag_mem (s : State) (x : Reg) (res : Byte) (c : Bool) :
    (writeResultThenFlag s x res c).mem = s.mem := rfl
@[simp] theorem writeResultThenFlag_I (s : State) (x : Reg) (res : Byte) (c : Bool) :
    (writeResultThenFlag s x res c).I = s.I := rfl
@[simp] theorem writeResultThenFlag_PC (s : State) (x : Reg) (res : Byte) (c : Bool) :
    (writeResultThenFlag s x res c).PC = s.PC := rfl
@[simp] theorem writeResultThenFlag_SP (s : State) (x : Reg) (res : Byte) (c : Bool) :
    (writeResultThenFlag s x res c).SP = s.SP := rfl
@[simp] theorem writeResultThenFlag_stack (s : State) (x : Reg) (res : Byte) (c : Bool) :
    (writeResultThenFlag s x res c).stack = s.stack := rfl
@[simp] theorem writeResultThenFlag_DT (s : State) (x : Reg) (res : Byte) (c : Bool) :
    (writeResultThenFlag s x res c).DT = s.DT := rfl
@[simp] theorem writeResultThenFlag_ST (s : State) (x : Reg) (res : Byte) (c : Bool) :
    (writeResultThenFlag s x res c).ST = s.ST := rfl
@[simp] theorem writeResultThenFlag_disp (s : State) (x : Reg) (res : Byte) (c : Bool) :
    (writeResultThenFlag s x res c).disp = s.disp := rfl
@[simp] theorem writeResultThenFlag_halted (s : State) (x : Reg) (res : Byte) (c : Bool) :
    (writeResultThenFlag s x res c).halted = s.halted := rfl
@[simp] theorem writeResultThenFlag_fault (s : State) (x : Reg) (res : Byte) (c : Bool) :
    (writeResultThenFlag s x res c).fault = s.fault := rfl
@[simp] theorem writeResultThenFlag_keys (s : State) (x : Reg) (res : Byte) (c : Bool) :
    (writeResultThenFlag s x res c).keys = s.keys := rfl
@[simp] theorem writeResultThenFlag_rand (s : State) (x : Reg) (res : Byte) (c : Bool) :
    (writeResultThenFlag s x res c).rand = s.rand := rfl
@[simp] theorem writeResultThenFlag_cfg (s : State) (x : Reg) (res : Byte) (c : Bool) :
    (writeResultThenFlag s x res c).cfg = s.cfg := rfl
@[simp] theorem writeResultThenFlag_inputs (s : State) (x : Reg) (res : Byte) (c : Bool) :
    (writeResultThenFlag s x res c).inputs = s.inputs := rfl
@[simp] theorem writeResultThenFlag_tickAcc (s : State) (x : Reg) (res : Byte) (c : Bool) :
    (writeResultThenFlag s x res c).tickAcc = s.tickAcc := rfl
@[simp] theorem writeResultThenFlag_drawIndex (s : State) (x : Reg) (res : Byte) (c : Bool) :
    (writeResultThenFlag s x res c).drawIndex = s.drawIndex := rfl
@[simp] theorem writeResultThenFlag_faultRecord (s : State) (x : Reg) (res : Byte) (c : Bool) :
    (writeResultThenFlag s x res c).faultRecord = s.faultRecord := rfl
@[simp] theorem writeResultThenFlag_readByte (s : State) (x : Reg) (res : Byte) (c : Bool) (a : Nat) :
    (writeResultThenFlag s x res c).readByte a = s.readByte a := rfl

@[simp] theorem writeFlagThenResult_mem (s : State) (x : Reg) (res : Byte) (c : Bool) :
    (writeFlagThenResult s x res c).mem = s.mem := rfl
@[simp] theorem writeFlagThenResult_I (s : State) (x : Reg) (res : Byte) (c : Bool) :
    (writeFlagThenResult s x res c).I = s.I := rfl
@[simp] theorem writeFlagThenResult_PC (s : State) (x : Reg) (res : Byte) (c : Bool) :
    (writeFlagThenResult s x res c).PC = s.PC := rfl
@[simp] theorem writeFlagThenResult_SP (s : State) (x : Reg) (res : Byte) (c : Bool) :
    (writeFlagThenResult s x res c).SP = s.SP := rfl
@[simp] theorem writeFlagThenResult_stack (s : State) (x : Reg) (res : Byte) (c : Bool) :
    (writeFlagThenResult s x res c).stack = s.stack := rfl
@[simp] theorem writeFlagThenResult_DT (s : State) (x : Reg) (res : Byte) (c : Bool) :
    (writeFlagThenResult s x res c).DT = s.DT := rfl
@[simp] theorem writeFlagThenResult_ST (s : State) (x : Reg) (res : Byte) (c : Bool) :
    (writeFlagThenResult s x res c).ST = s.ST := rfl
@[simp] theorem writeFlagThenResult_disp (s : State) (x : Reg) (res : Byte) (c : Bool) :
    (writeFlagThenResult s x res c).disp = s.disp := rfl
@[simp] theorem writeFlagThenResult_halted (s : State) (x : Reg) (res : Byte) (c : Bool) :
    (writeFlagThenResult s x res c).halted = s.halted := rfl
@[simp] theorem writeFlagThenResult_fault (s : State) (x : Reg) (res : Byte) (c : Bool) :
    (writeFlagThenResult s x res c).fault = s.fault := rfl
@[simp] theorem writeFlagThenResult_keys (s : State) (x : Reg) (res : Byte) (c : Bool) :
    (writeFlagThenResult s x res c).keys = s.keys := rfl
@[simp] theorem writeFlagThenResult_rand (s : State) (x : Reg) (res : Byte) (c : Bool) :
    (writeFlagThenResult s x res c).rand = s.rand := rfl
@[simp] theorem writeFlagThenResult_cfg (s : State) (x : Reg) (res : Byte) (c : Bool) :
    (writeFlagThenResult s x res c).cfg = s.cfg := rfl
@[simp] theorem writeFlagThenResult_inputs (s : State) (x : Reg) (res : Byte) (c : Bool) :
    (writeFlagThenResult s x res c).inputs = s.inputs := rfl
@[simp] theorem writeFlagThenResult_tickAcc (s : State) (x : Reg) (res : Byte) (c : Bool) :
    (writeFlagThenResult s x res c).tickAcc = s.tickAcc := rfl
@[simp] theorem writeFlagThenResult_drawIndex (s : State) (x : Reg) (res : Byte) (c : Bool) :
    (writeFlagThenResult s x res c).drawIndex = s.drawIndex := rfl
@[simp] theorem writeFlagThenResult_faultRecord (s : State) (x : Reg) (res : Byte) (c : Bool) :
    (writeFlagThenResult s x res c).faultRecord = s.faultRecord := rfl
@[simp] theorem writeFlagThenResult_readByte (s : State) (x : Reg) (res : Byte) (c : Bool) (a : Nat) :
    (writeFlagThenResult s x res c).readByte a = s.readByte a := rfl

end Sys2Proof.Machine
end

