-- ==== Sys2Proof/Laws/PerInstr.lean ====
section
/-! SUPPORT. Statements per instruction. `RowMatch`: the word of an instruction selects its own row of the opcode table, whatever
its operands (30_encoding.md R64). -/

namespace Sys2Proof

/-! ### A mask on a concatenation is a mask on its parts -/

theorem joinWord_and (a c : BitVec 4) (b d : BitVec 12) : joinWord a b &&& joinWord c d = joinWord (a &&& c) (b &&& d) := by
  apply BitVec.eq_of_getLsbD_eq
  intro i _
  rw [BitVec.getLsbD_and, getLsbD_joinWord, getLsbD_joinWord, getLsbD_joinWord]
  split <;> simp

theorem joinField_and (a c : BitVec 4) (b d : Byte) :
    joinField a b &&& joinField c d = joinField (a &&& c) (b &&& d) := by
  apply BitVec.eq_of_getLsbD_eq
  intro i _
  rw [BitVec.getLsbD_and, getLsbD_joinField, getLsbD_joinField, getLsbD_joinField]
  split <;> simp

theorem joinByte_and (a b c d : BitVec 4) : joinByte a b &&& joinByte c d = joinByte (a &&& c) (b &&& d) := by
  apply BitVec.eq_of_getLsbD_eq
  intro i _
  rw [BitVec.getLsbD_and, getLsbD_joinByte, getLsbD_joinByte, getLsbD_joinByte]
  split <;> simp

/-- The mask 0xF000 keeps the primary opcode. -/
theorem encNNN_mask (op : BitVec 4) (nnn : BitVec 12) : encNNN op nnn &&& 0xF000 = encNNN op 0 := by
  have := joinWord_and op 0xF nnn 0
  rw [show nnn &&& 0 = 0 from BitVec.and_zero] at this
  rw [encNNN, show (0xF000 : Word) = joinWord 0xF 0 from rfl, this, show op &&& 0xF = op from BitVec.and_allOnes]
  rfl

theorem encXKK_mask (op : BitVec 4) (x : Reg) (kk : Byte) : encXKK op x kk &&& 0xF000 = encNNN op 0 :=
  encNNN_mask op _

theorem encXYN_mask (op : BitVec 4) (x y : Reg) (n : BitVec 4) : encXYN op x y n &&& 0xF000 = encNNN op 0 :=
  encNNN_mask op _

/-- The mask 0xF00F keeps the primary and the secondary opcode. -/
theorem encXYN_mask_low (op : BitVec 4) (x y : Reg) (n : BitVec 4) : encXYN op x y n &&& 0xF00F = encXYN op 0 0 n := by
  rw [encXYN, show (0xF00F : Word) = joinWord 0xF (joinField 0 (joinByte 0 0xF)) from rfl, joinWord_and, joinField_and,
    joinByte_and, show regBits x &&& 0 = 0 from BitVec.and_zero, show regBits y &&& 0 = 0 from BitVec.and_zero, show op &&& 0xF = op from BitVec.and_allOnes,
    show n &&& 0xF = n from BitVec.and_allOnes]
  rfl

/-- The mask 0xF0FF keeps the primary opcode and the low byte. -/
theorem encXKK_mask_byte (op : BitVec 4) (x : Reg) (kk : Byte) : encXKK op x kk &&& 0xF0FF = encXKK op 0 kk := by
  rw [encXKK, show (0xF0FF : Word) = joinWord 0xF (joinField 0 0xFF) from rfl, joinWord_and, joinField_and,
    show regBits x &&& 0 = 0 from BitVec.and_zero, show op &&& 0xF = op from BitVec.and_allOnes, show kk &&& 0xFF = kk from BitVec.and_allOnes]
  rfl

end Sys2Proof

namespace Sys2Proof.Laws.RowMatch

/-- The instruction's word matches the table's row of the instruction's name. -/
def Statement (i : Instr) : Prop :=
  ∃ row ∈ opcodeTable, row.mnemonic = mnemonicOf i ∧ row.matchesWord (encode i) = true

/-- How a row is shown to match: its place in the table, and its mask on the word. -/
theorem of_row {i : Instr} (row : OpcodeRow) (hr : row ∈ opcodeTable) (hn : row.mnemonic = mnemonicOf i)
    (hm : encode i &&& row.mask = row.value) : Statement i :=
  ⟨row, hr, hn, by simp [OpcodeRow.matchesWord, hm]⟩

theorem cls : Statement .cls :=
  of_row ⟨"CLS", 0xFFFF, 0x00E0⟩ (by decide) rfl (rfl)
theorem ret : Statement .ret :=
  of_row ⟨"RET", 0xFFFF, 0x00EE⟩ (by decide) rfl (rfl)
theorem jp (nnn : BitVec 12) : Statement (.jp nnn) :=
  of_row ⟨"JP", 0xF000, 0x1000⟩ (by decide) rfl (encNNN_mask _ _)
theorem call (nnn : BitVec 12) : Statement (.call nnn) :=
  of_row ⟨"CALL", 0xF000, 0x2000⟩ (by decide) rfl (encNNN_mask _ _)
theorem seImm (x : Reg) (kk : Byte) : Statement (.seImm x kk) :=
  of_row ⟨"SE_IMM", 0xF000, 0x3000⟩ (by decide) rfl (encXKK_mask _ _ _)
theorem sneImm (x : Reg) (kk : Byte) : Statement (.sneImm x kk) :=
  of_row ⟨"SNE_IMM", 0xF000, 0x4000⟩ (by decide) rfl (encXKK_mask _ _ _)
theorem seReg (x y : Reg) : Statement (.seReg x y) :=
  of_row ⟨"SE_REG", 0xF00F, 0x5000⟩ (by decide) rfl (encXYN_mask_low _ _ _ _)
theorem ldImm (x : Reg) (kk : Byte) : Statement (.ldImm x kk) :=
  of_row ⟨"LD_IMM", 0xF000, 0x6000⟩ (by decide) rfl (encXKK_mask _ _ _)
theorem addImm (x : Reg) (kk : Byte) : Statement (.addImm x kk) :=
  of_row ⟨"ADD_IMM", 0xF000, 0x7000⟩ (by decide) rfl (encXKK_mask _ _ _)
theorem ldReg (x y : Reg) : Statement (.ldReg x y) :=
  of_row ⟨"LD_REG", 0xF00F, 0x8000⟩ (by decide) rfl (encXYN_mask_low _ _ _ _)
theorem orReg (x y : Reg) : Statement (.orReg x y) :=
  of_row ⟨"OR", 0xF00F, 0x8001⟩ (by decide) rfl (encXYN_mask_low _ _ _ _)
theorem andReg (x y : Reg) : Statement (.andReg x y) :=
  of_row ⟨"AND", 0xF00F, 0x8002⟩ (by decide) rfl (encXYN_mask_low _ _ _ _)
theorem xorReg (x y : Reg) : Statement (.xorReg x y) :=
  of_row ⟨"XOR", 0xF00F, 0x8003⟩ (by decide) rfl (encXYN_mask_low _ _ _ _)
theorem addReg (x y : Reg) : Statement (.addReg x y) :=
  of_row ⟨"ADD_REG", 0xF00F, 0x8004⟩ (by decide) rfl (encXYN_mask_low _ _ _ _)
theorem sub (x y : Reg) : Statement (.sub x y) :=
  of_row ⟨"SUB", 0xF00F, 0x8005⟩ (by decide) rfl (encXYN_mask_low _ _ _ _)
theorem shr (x y : Reg) : Statement (.shr x y) :=
  of_row ⟨"SHR", 0xF00F, 0x8006⟩ (by decide) rfl (encXYN_mask_low _ _ _ _)
theorem subn (x y : Reg) : Statement (.subn x y) :=
  of_row ⟨"SUBN", 0xF00F, 0x8007⟩ (by decide) rfl (encXYN_mask_low _ _ _ _)
theorem shl (x y : Reg) : Statement (.shl x y) :=
  of_row ⟨"SHL", 0xF00F, 0x800E⟩ (by decide) rfl (encXYN_mask_low _ _ _ _)
theorem sneReg (x y : Reg) : Statement (.sneReg x y) :=
  of_row ⟨"SNE_REG", 0xF00F, 0x9000⟩ (by decide) rfl (encXYN_mask_low _ _ _ _)
theorem ldI (nnn : BitVec 12) : Statement (.ldI nnn) :=
  of_row ⟨"LD_I", 0xF000, 0xA000⟩ (by decide) rfl (encNNN_mask _ _)
theorem ldIV0 (nnn : BitVec 12) : Statement (.ldIV0 nnn) :=
  of_row ⟨"LD_I_V0", 0xF000, 0xB000⟩ (by decide) rfl (encNNN_mask _ _)
theorem rnd (x : Reg) (kk : Byte) : Statement (.rnd x kk) :=
  of_row ⟨"RND", 0xF000, 0xC000⟩ (by decide) rfl (encXKK_mask _ _ _)
theorem drw (x y : Reg) (n : BitVec 4) : Statement (.drw x y n) :=
  of_row ⟨"DRW", 0xF000, 0xD000⟩ (by decide) rfl (encXYN_mask _ _ _ _)
theorem skp (x : Reg) : Statement (.skp x) :=
  of_row ⟨"SKP", 0xF0FF, 0xE09E⟩ (by decide) rfl (encXKK_mask_byte _ _ _)
theorem sknp (x : Reg) : Statement (.sknp x) :=
  of_row ⟨"SKNP", 0xF0FF, 0xE0A1⟩ (by decide) rfl (encXKK_mask_byte _ _ _)
theorem ldVxDt (x : Reg) : Statement (.ldVxDt x) :=
  of_row ⟨"LD_VX_DT", 0xF0FF, 0xF007⟩ (by decide) rfl (encXKK_mask_byte _ _ _)
theorem ldVxK (x : Reg) : Statement (.ldVxK x) :=
  of_row ⟨"LD_VX_K", 0xF0FF, 0xF00A⟩ (by decide) rfl (encXKK_mask_byte _ _ _)
theorem ldDtVx (x : Reg) : Statement (.ldDtVx x) :=
  of_row ⟨"LD_DT_VX", 0xF0FF, 0xF015⟩ (by decide) rfl (encXKK_mask_byte _ _ _)
theorem ldStVx (x : Reg) : Statement (.ldStVx x) :=
  of_row ⟨"LD_ST_VX", 0xF0FF, 0xF018⟩ (by decide) rfl (encXKK_mask_byte _ _ _)
theorem ldFVx (x : Reg) : Statement (.ldFVx x) :=
  of_row ⟨"LD_F_VX", 0xF0FF, 0xF029⟩ (by decide) rfl (encXKK_mask_byte _ _ _)
theorem ldBVx (x : Reg) : Statement (.ldBVx x) :=
  of_row ⟨"LD_B_VX", 0xF0FF, 0xF033⟩ (by decide) rfl (encXKK_mask_byte _ _ _)
theorem stRegs (x : Reg) : Statement (.stRegs x) :=
  of_row ⟨"ST_REGS", 0xF0FF, 0xF055⟩ (by decide) rfl (encXKK_mask_byte _ _ _)
theorem ldRegs (x : Reg) : Statement (.ldRegs x) :=
  of_row ⟨"LD_REGS", 0xF0FF, 0xF065⟩ (by decide) rfl (encXKK_mask_byte _ _ _)

end Sys2Proof.Laws.RowMatch
end

