-- ==== Sys2Proof/Laws/Step.lean ====
section
/-! SUPPORT. What a step can do, said once: the environment's part, each event, and the cases of an instruction cycle. -/

namespace Sys2Proof.Machine

/-! ### Taking an event off changes the environment only -/

theorem consumeEvent_eq (s : State) :
    ∃ ins acc d, consumeEvent s = { s with inputs := ins, tickAcc := acc, drawIndex := d } := by
  unfold consumeEvent
  split
  · exact ⟨_, _, _, rfl⟩
  · split <;> exact ⟨_, _, _, rfl⟩

@[simp] theorem consumeEvent_mem (s : State) : (consumeEvent s).mem = s.mem := by
  obtain ⟨_, _, _, h⟩ := consumeEvent_eq s; rw [h]
@[simp] theorem consumeEvent_V (s : State) : (consumeEvent s).V = s.V := by
  obtain ⟨_, _, _, h⟩ := consumeEvent_eq s; rw [h]
@[simp] theorem consumeEvent_I (s : State) : (consumeEvent s).I = s.I := by
  obtain ⟨_, _, _, h⟩ := consumeEvent_eq s; rw [h]
@[simp] theorem consumeEvent_PC (s : State) : (consumeEvent s).PC = s.PC := by
  obtain ⟨_, _, _, h⟩ := consumeEvent_eq s; rw [h]
@[simp] theorem consumeEvent_SP (s : State) : (consumeEvent s).SP = s.SP := by
  obtain ⟨_, _, _, h⟩ := consumeEvent_eq s; rw [h]
@[simp] theorem consumeEvent_stack (s : State) : (consumeEvent s).stack = s.stack := by
  obtain ⟨_, _, _, h⟩ := consumeEvent_eq s; rw [h]
@[simp] theorem consumeEvent_DT (s : State) : (consumeEvent s).DT = s.DT := by
  obtain ⟨_, _, _, h⟩ := consumeEvent_eq s; rw [h]
@[simp] theorem consumeEvent_ST (s : State) : (consumeEvent s).ST = s.ST := by
  obtain ⟨_, _, _, h⟩ := consumeEvent_eq s; rw [h]
@[simp] theorem consumeEvent_disp (s : State) : (consumeEvent s).disp = s.disp := by
  obtain ⟨_, _, _, h⟩ := consumeEvent_eq s; rw [h]
@[simp] theorem consumeEvent_halted (s : State) : (consumeEvent s).halted = s.halted := by
  obtain ⟨_, _, _, h⟩ := consumeEvent_eq s; rw [h]
@[simp] theorem consumeEvent_fault (s : State) : (consumeEvent s).fault = s.fault := by
  obtain ⟨_, _, _, h⟩ := consumeEvent_eq s; rw [h]
@[simp] theorem consumeEvent_keys (s : State) : (consumeEvent s).keys = s.keys := by
  obtain ⟨_, _, _, h⟩ := consumeEvent_eq s; rw [h]
@[simp] theorem consumeEvent_rand (s : State) : (consumeEvent s).rand = s.rand := by
  obtain ⟨_, _, _, h⟩ := consumeEvent_eq s; rw [h]
@[simp] theorem consumeEvent_cfg (s : State) : (consumeEvent s).cfg = s.cfg := by
  obtain ⟨_, _, _, h⟩ := consumeEvent_eq s; rw [h]
@[simp] theorem consumeEvent_faultRecord (s : State) : (consumeEvent s).faultRecord = s.faultRecord := by
  obtain ⟨_, _, _, h⟩ := consumeEvent_eq s; rw [h]
@[simp] theorem consumeEvent_readByte (s : State) (a : Nat) : (consumeEvent s).readByte a = s.readByte a := by
  simp [State.readByte]
@[simp] theorem consumeEvent_v (s : State) (x : Reg) : (consumeEvent s).v x = s.v x := by
  simp [State.v]

theorem nextEvent_cons {s : State} {e : Event} {rest : List Event} (h : s.inputs = e :: rest) : nextEvent s = e := by
  simp [nextEvent, h]

theorem consumeEvent_cons {s : State} {e : Event} {rest : List Event} (h : s.inputs = e :: rest) :
    consumeEvent s = { s with inputs := rest } := by
  simp [consumeEvent, h]

/-! ### The step and its events -/

theorem step_eq (s : State) : step s = fire (nextEvent s) (consumeEvent s) := rfl

theorem core_run_succ (M : Host.Core) {k : Nat} {s t : M.State} (h : M.step s = .next t) :
    M.run (k + 1) s = M.run k t := by
  simp [Host.Core.run, h]

/-- A run of `k + 1` steps is a step and a run of `k`. -/
theorem run_succ {k : Nat} {s t : State} (h : step s = .next t) :
    Host.Core.run core (k + 1) s = Host.Core.run core k t :=
  core_run_succ core h

/-- A step is a reset, a tick or an instruction cycle. -/
theorem step_cases {s t : State} (h : step s = .next t) :
    (∃ rom, nextEvent s = .reset rom ∧ resetEvent rom (consumeEvent s) = .next t) ∨
      (nextEvent s = .timerClk ∧ timerTick (consumeEvent s) = .next t) ∨
      (∃ keys rand, nextEvent s = .instrClk keys rand ∧ instructionCycle keys rand (consumeEvent s) = .next t) := by
  rw [step_eq] at h
  cases he : nextEvent s with
  | reset rom => rw [he] at h; exact .inl ⟨rom, rfl, h⟩
  | timerClk => rw [he] at h; exact .inr (.inl ⟨rfl, h⟩)
  | instrClk keys rand => rw [he] at h; exact .inr (.inr ⟨keys, rand, rfl, h⟩)

/-- A tick does nothing while halted, else it counts both timers (60_exceptions.md R181). -/
theorem timerTick_cases {s t : State} (h : timerTick s = .next t) :
    (s.halted = true ∧ t = s) ∨
      (s.halted = false ∧ t = { s with DT := countDown s.DT, ST := countDown s.ST }) := by
  unfold timerTick at h
  split at h
  · cases h; exact .inl ⟨‹_›, rfl⟩
  · cases h; exact .inr ⟨Bool.eq_false_iff.mpr ‹_›, rfl⟩

/-- A timer counts down by one and stops at 0. -/
theorem countDown_toNat (b : Byte) : (countDown b).toNat = b.toNat - 1 := by
  unfold countDown
  split
  · subst b; rfl
  · have : b.toNat ≠ 0 := fun h => ‹¬_› (BitVec.eq_of_toNat_eq h)
    rw [BitVec.toNat_sub_of_le (by rw [BitVec.le_def]; simp; omega)]
    rfl

/-- A reset builds the fresh state with the ROM in it, or halts it with RomTooLarge (70_reset_and_hazards.md R200, R202). -/
theorem resetEvent_cases {rom : List Byte} {s t : State} (h : resetEvent rom s = .next t) :
    (rom.length ≤ romMax ∧ t = (freshState s).setMem (writeBytes s.cfg [] programBase rom)) ∨
      (romMax < rom.length ∧ t = { freshState s with
        halted := true, fault := 9, faultRecord := some (.romTooLarge rom.length) }) := by
  unfold resetEvent at h
  split at h
  · cases h; exact .inr ⟨‹_›, rfl⟩
  · cases h; exact .inl ⟨by omega, rfl⟩

/-- A fetch succeeds exactly from 0x200 .. 0xFFE (40_flow.md R81). -/
theorem fetch_ok_iff {s : State} {w : Word} :
    fetch s = .ok w ↔ 0x200 ≤ s.PC.toNat ∧ s.PC.toNat ≤ 0xFFE ∧
      w = wordOfBytes (s.readByte s.PC.toNat) (s.readByte (s.PC.toNat + 1)) := by
  unfold fetch programBase lastFetch
  split
  · simp; omega
  · simp only [Except.ok.injEq]
    constructor
    · intro h; exact ⟨by omega, by omega, h.symm⟩
    · intro h; exact h.2.2.symm

theorem fetch_error {s : State} (h : s.PC.toNat < 0x200 ∨ 0xFFE < s.PC.toNat) :
    fetch s = .error (.fetchOutOfRange s.PC) := by
  unfold fetch programBase lastFetch
  rw [if_pos h]

@[simp] theorem fetch_sample (s : State) (k : Keys) (r : Byte) : fetch (s.sample k r) = fetch s := rfl

/-- An unmatched word under strict decoding (30_encoding.md R67). -/
theorem execUnmatched_strict {w : Word} {s : State} (h : s.cfg.strictDecode = true) :
    execUnmatched w s = raise (.unimplementedOpcode w) s := if_pos h

/-- An unmatched word under permissive decoding (R67). -/
theorem execUnmatched_permissive {w : Word} {s : State} (h : s.cfg.strictDecode = false) :
    execUnmatched w s = .next s.advance := if_neg (by rw [h]; decide)

/-- An instruction cycle: frozen while halted; else a fetch fault, an instruction, or an unmatched word (40_flow.md R80). -/
theorem instructionCycle_cases {keys : Keys} {rand : Byte} {s t : State}
    (h : instructionCycle keys rand s = .next t) :
    (s.halted = true ∧ t = s) ∨
      (s.halted = false ∧
        ((∃ c, fetch s = .error c ∧ raise c (s.sample keys rand) = .next t) ∨
          (∃ w i, fetch s = .ok w ∧ decodeWord w = some i ∧ exec i (s.sample keys rand) = .next t) ∨
          (∃ w, fetch s = .ok w ∧ decodeWord w = none ∧ s.cfg.strictDecode = true ∧
            raise (.unimplementedOpcode w) (s.sample keys rand) = .next t) ∨
          (∃ w, fetch s = .ok w ∧ decodeWord w = none ∧ s.cfg.strictDecode = false ∧
            t = (s.sample keys rand).advance))) := by
  unfold instructionCycle at h
  split at h
  · cases h; exact .inl ⟨‹_›, rfl⟩
  · refine .inr ⟨Bool.eq_false_iff.mpr ‹_›, ?_⟩
    unfold fetchDecodeExecute at h
    rw [fetch_sample] at h
    cases hf : fetch s with
    | error c => rw [hf] at h; exact .inl ⟨c, rfl, h⟩
    | ok w =>
      rw [hf, orRaise_ok, execWord] at h
      cases hd : decodeWord w with
      | some i => rw [hd] at h; exact .inr (.inl ⟨w, i, rfl, hd, h⟩)
      | none =>
        rw [hd] at h
        cases hs : s.cfg.strictDecode with
        | true =>
          rw [execUnmatched_strict (by exact hs)] at h
          exact .inr (.inr (.inl ⟨w, rfl, hd, rfl, h⟩))
        | false =>
          rw [execUnmatched_permissive (by exact hs)] at h
          cases h; exact .inr (.inr (.inr ⟨w, rfl, hd, rfl, rfl⟩))

end Sys2Proof.Machine
end

