-- ==== Sys2Proof/Tests/Slice0.lean ====
section
/-! SUPPORT. Tests of the model: the checks on ill-formed data, every row's decoding, one-step tests, and for every statement
with hypotheses a witness that meets them. Expected results are those of spec/95_test_vectors.md (the vector is named beside
each), of the worked examples of the instruction rules, or of the encoding table of 30_encoding.md R64. -/

namespace Sys2Proof.Tests

open Sys2Proof.Machine

/-! ## Small states -/

/-- The reset state with some V registers set. -/
def regs (l : List (Reg × Byte)) : State := l.foldl (fun s p => s.setV p.1 p.2) State.reset

/-- Some bytes placed in memory, lowest address first. -/
def poke (s : State) (a : Nat) (bs : List Byte) : State := s.setMem (writeBytes s.cfg s.mem a bs)

/-- The state one step leads to when the word `w` stands at PC. -/
def stepWord (w : Nat) (s : State) : Option State :=
  match step (s.withFetchWord 16 w) with
  | .next t => some t
  | _ => none

/-- The state one meaning leads to. -/
def after (i : Instr) (s : State) : Option State :=
  match exec i s with
  | .next t => some t
  | _ => none

/-- The state one step leads to with the events of the state as they are. -/
def stepped (s : State) : Option State :=
  match step s with
  | .next t => some t
  | _ => none

/-- The reset state under strict decoding. -/
def strict : State := { State.reset with cfg := { defaultConfig with strictDecode := true } }

/-- The reset state with the font at 0x010. -/
def highFont : State := { State.reset with cfg := { defaultConfig with fontBase := 0x10 } }

/-- The reset state with sixteen stack entries in use. -/
def fullStack : State := { State.reset with SP := 16 }

/-- A fault's code, with its info, and PC. -/
def faultView (t : State) : Bool × BitVec 4 × Option FaultCause × Word := (t.halted, t.fault, t.faultRecord, t.PC)

/-! ## Ill-formed data is refused (00_scope.md R5, 70_reset_and_hazards.md R202) -/

theorem test_wf_default : defaultConfig.wf = true := by decide

theorem test_wf_refuses_rate_zero : Config.wf { defaultConfig with instrHz := 0 } = false := by decide

theorem test_wf_refuses_font_over_program : Config.wf { defaultConfig with fontBase := 0x1B1 } = false := by decide

theorem test_wf_accepts_highest_font : Config.wf { defaultConfig with fontBase := 0x1B0 } = true := by decide

theorem test_rom_fits : romFits (List.replicate 3584 0) = true := by
  rw [romFits, List.length_replicate]; decide

theorem test_rom_too_large : romFits (List.replicate 3585 0) = false := by
  rw [romFits, List.length_replicate]; decide

/-! ## Every row's decoding: words written from the encoding column of 30_encoding.md R64 -/

theorem test_decode_fixed : decodeWord 0x00E0 = some .cls ∧ decodeWord 0x00EE = some .ret := by decide

theorem test_decode_control :
    decodeWord 0x1ABC = some (.jp 0xABC) ∧ decodeWord 0x2300 = some (.call 0x300) ∧
    decodeWord 0x332A = some (.seImm 3 0x2A) ∧ decodeWord 0x4AFF = some (.sneImm 10 0xFF) ∧
    decodeWord 0x5120 = some (.seReg 1 2) ∧ decodeWord 0x9E70 = some (.sneReg 14 7) := by decide

theorem test_decode_immediate :
    decodeWord 0x6A2F = some (.ldImm 10 0x2F) ∧ decodeWord 0x7201 = some (.addImm 2 0x01) ∧
    decodeWord 0xC30F = some (.rnd 3 0x0F) := by decide

theorem test_decode_register :
    decodeWord 0x8AF0 = some (.ldReg 10 15) ∧ decodeWord 0x8121 = some (.orReg 1 2) ∧
    decodeWord 0x8122 = some (.andReg 1 2) ∧ decodeWord 0x8123 = some (.xorReg 1 2) ∧
    decodeWord 0x8124 = some (.addReg 1 2) ∧ decodeWord 0x8125 = some (.sub 1 2) ∧
    decodeWord 0x8126 = some (.shr 1 2) ∧ decodeWord 0x8127 = some (.subn 1 2) ∧
    decodeWord 0x8ABE = some (.shl 10 11) := by decide

theorem test_decode_index :
    decodeWord 0xA2F0 = some (.ldI 0x2F0) ∧ decodeWord 0xB300 = some (.ldIV0 0x300) ∧
    decodeWord 0xF229 = some (.ldFVx 2) ∧ decodeWord 0xF533 = some (.ldBVx 5) ∧
    decodeWord 0xF255 = some (.stRegs 2) ∧ decodeWord 0xF465 = some (.ldRegs 4) := by decide

theorem test_decode_draw :
    decodeWord 0xD12F = some (.drw 1 2 15) ∧ decodeWord 0xDF10 = some (.drw 15 1 0) := by decide

theorem test_decode_keys_timers :
    decodeWord 0xE19E = some (.skp 1) ∧ decodeWord 0xE1A1 = some (.sknp 1) ∧
    decodeWord 0xF207 = some (.ldVxDt 2) ∧ decodeWord 0xF30A = some (.ldVxK 3) ∧
    decodeWord 0xF215 = some (.ldDtVx 2) ∧ decodeWord 0xF218 = some (.ldStVx 2) := by decide

/-- Words of V-F9 to V-F13: unmatched. -/
theorem test_decode_unmatched :
    decodeWord 0x0000 = none ∧ decodeWord 0x0123 = none ∧ decodeWord 0x5121 = none ∧ decodeWord 0x9121 = none ∧
    decodeWord 0x8128 = none ∧ decodeWord 0xE100 = none ∧ decodeWord 0xF000 = none ∧ decodeWord 0xF11E = none ∧
    decodeWord 0x00E1 = none ∧ decodeWord 0x00FF = none := by decide

/-- The two bytes 60 9C of program P2 are LD V0, 0x9C, high byte first. -/
theorem test_decode_bytes : decode [0x60, 0x9C, 0x22] = .ok (.ldImm 0 0x9C, [0x22]) := by rfl

theorem test_decode_truncated : decode [0x60] = .error .truncated := by rfl

theorem test_decodeTableWord : decodeTableWord 16 0x8014 = some (.addReg 0 1) ∧ decodeTableWord 16 0xF11E = none := by decide

theorem test_encode : encode (.drw 1 2 5) = 0xD125 ∧ encode (.shl 10 11) = 0x8ABE ∧ encode (.ldBVx 5) = 0xF533 ∧
    encode (.jp 0xABC) = 0x1ABC ∧ encode (.sneImm 10 0xFF) = 0x4AFF := by decide

/-! ## Control flow -/

/-- V-C1. -/
theorem test_jp : (stepWord 0x1ABC State.reset).map (·.PC) = some 0x0ABC := by decide

/-- V-C4. -/
theorem test_call : (stepWord 0x2300 State.reset).map (fun t => (t.PC, t.SP, t.stack[0])) = some (0x0300, 1, 0x0202) := by
  decide

/-- V-C6. -/
theorem test_call_overflow : (stepWord 0x2300 fullStack).map faultView =
    some (true, 1, some (.stackOverflow 0x200), 0x200) := by decide

/-- V-C7. -/
theorem test_ret : (stepWord 0x00EE { State.reset with SP := 2, stack := (State.reset.stack.set 0 0x204).set 1 0x3AC }).map
    (fun t => (t.PC, t.SP, t.stack[1])) = some (0x03AC, 1, 0x03AC) := by decide

/-- V-C8. -/
theorem test_ret_underflow : (stepWord 0x00EE State.reset).map faultView =
    some (true, 2, some (.stackUnderflow 0x200), 0x200) := by decide

/-- V-C9, V-C10. -/
theorem test_seImm : (stepWord 0x3A00 State.reset).map (·.PC) = some 0x204 ∧
    (stepWord 0x3A01 State.reset).map (·.PC) = some 0x202 := by decide

/-- V-C12, V-C13. -/
theorem test_sneImm : (stepWord 0x4AFF (regs [(10, 0xFF)])).map (·.PC) = some 0x202 ∧
    (stepWord 0x4AFF (regs [(10, 0xFE)])).map (·.PC) = some 0x204 := by decide

/-- V-C14, V-C15. -/
theorem test_seReg : (stepWord 0x5120 (regs [(1, 7), (2, 7)])).map (·.PC) = some 0x204 ∧
    (stepWord 0x5120 (regs [(1, 7), (2, 8)])).map (·.PC) = some 0x202 := by decide

/-- V-C17, V-C18. -/
theorem test_sneReg : (stepWord 0x9120 (regs [(1, 7), (2, 8)])).map (·.PC) = some 0x204 ∧
    (stepWord 0x9120 (regs [(1, 7), (2, 7)])).map (·.PC) = some 0x202 := by decide

/-! ## Registers and arithmetic -/

/-- V-A1. -/
theorem test_ldImm : (stepWord 0x6A2F State.reset).map (fun t => (t.v 10, t.PC)) = some (0x2F, 0x202) := by decide

/-- V-A3. -/
theorem test_addImm : (stepWord 0x720A (regs [(2, 0xFA), (VF, 7)])).map (fun t => (t.v 2, t.v VF)) = some (4, 7) := by decide

/-- V-A7. -/
theorem test_ldReg : (stepWord 0x8010 (regs [(0, 1), (1, 9)])).map (fun t => (t.v 0, t.v 1)) = some (9, 9) := by decide

/-- V-A9. -/
theorem test_or : (stepWord 0x8011 (regs [(0, 0xF0), (1, 0x0F), (VF, 5)])).map (fun t => (t.v 0, t.v VF)) =
    some (0xFF, 5) := by decide

/-- V-A10. -/
theorem test_and : (stepWord 0x8012 (regs [(0, 0xF0), (1, 0x3C), (VF, 5)])).map (fun t => (t.v 0, t.v VF)) =
    some (0x30, 5) := by decide

/-- V-A11. -/
theorem test_xor : (stepWord 0x8013 (regs [(0, 0xF0), (1, 0x3C), (VF, 5)])).map (fun t => (t.v 0, t.v VF)) =
    some (0xCC, 5) := by decide

/-- V-A13. -/
theorem test_addReg : (stepWord 0x8014 (regs [(0, 0xC8), (1, 0x64)])).map (fun t => (t.v 0, t.v VF)) = some (0x2C, 1) := by
  decide

/-- V-A18: the flag stands in VF. -/
theorem test_addReg_into_VF : (stepWord 0x8F14 (regs [(VF, 0xC8), (1, 0x64)])).map (·.v VF) = some 1 := by decide

/-- V-A24: equal operands give no-borrow 0. -/
theorem test_sub_equal : (stepWord 0x8015 (regs [(0, 7), (1, 7), (VF, 1)])).map (fun t => (t.v 0, t.v VF)) = some (0, 0) := by
  decide

/-- V-A29: the result stands in VF. -/
theorem test_sub_into_VF : (stepWord 0x8F15 (regs [(VF, 3), (1, 0x0A)])).map (·.v VF) = some 0xF9 := by decide

/-- The example of R109, with Vy nonzero. -/
theorem test_shr : (stepWord 0x8416 (regs [(4, 5), (1, 0xFF)])).map (fun t => (t.v 4, t.v VF)) = some (2, 1) := by decide

/-- The examples of R110. -/
theorem test_subn : (stepWord 0x8017 (regs [(0, 5), (1, 10)])).map (fun t => (t.v 0, t.v VF)) = some (5, 1) ∧
    (stepWord 0x8017 (regs [(0, 10), (1, 5), (VF, 1)])).map (fun t => (t.v 0, t.v VF)) = some (251, 0) := by decide

/-- The example of R111, and V-A48. -/
theorem test_shl : (stepWord 0x840E (regs [(4, 0x81)])).map (fun t => (t.v 4, t.v VF)) = some (2, 1) ∧
    (stepWord 0x8F0E (regs [(VF, 0x81)])).map (·.v VF) = some 2 := by decide

/-- V-A50, V-A51. -/
theorem test_rnd : (stepWord 0xC30F { State.reset with rand := 0xA7 }).map (·.v 3) = some 7 ∧
    (stepWord 0xC300 { State.reset with rand := 0xFF }).map (·.v 3) = some 0 := by decide

/-! ## Index register and memory -/

/-- V-M1. -/
theorem test_ldI : (stepWord 0xA2F0 State.reset).map (·.I) = some 0x02F0 := by decide

/-- V-M5. -/
theorem test_ldIV0 : (stepWord 0xBFFF (regs [(0, 0xFF)])).map (fun t => (t.I, t.PC)) = some (0x10FE, 0x202) := by decide

/-- V-M7. -/
theorem test_ldFVx : (stepWord 0xF229 (regs [(2, 0x0A)])).map (·.I) = some 0x32 := by decide

/-- V-M10. -/
theorem test_ldFVx_fault : (stepWord 0xF229 ((regs [(2, 0x10)]).setI 0x123)).map (fun t => (faultView t, t.I)) =
    some ((true, 7, some (.fontIndexOutOfRange 0x10), 0x200), 0x123) := by decide

/-- V-M12. -/
theorem test_ldBVx : (stepWord 0xF533 ((regs [(5, 0x9C)]).setI 0x300)).map (fun t => readBytes t 0x300 3) =
    some [1, 5, 6] := by decide

/-- V-M22: the store into the font faults and changes nothing. -/
theorem test_ldBVx_font : (stepWord 0xF533 ((regs [(5, 0x7B)]).setI 0x4E)).map (fun t => (faultView t, readBytes t 0x4E 3)) =
    some ((true, 5, some (.fontWrite 0x4E), 0x200), [0x80, 0x80, 0]) := by decide

/-- V-M24. -/
theorem test_stRegs : (stepWord 0xF255 ((regs [(0, 0x11), (1, 0x22), (2, 0x33), (3, 0x44)]).setI 0x400)).map
    (fun t => (readBytes t 0x400 4, t.I)) = some ([0x11, 0x22, 0x33, 0], 0x400) := by decide

/-- V-M27. -/
theorem test_stRegs_fault : (stepWord 0xFF55 (State.reset.setI 0xFF1)).map faultView =
    some (true, 4, some (.memOutOfRange 0x1000 0x1000), 0x200) := by decide

/-- V-M31: glyph "1". -/
theorem test_ldRegs : (stepWord 0xF465 ((regs [(5, 9)]).setI 5)).map
    (fun t => (t.v 0, t.v 1, t.v 2, t.v 3, t.v 4, t.v 5)) = some (0x20, 0x60, 0x20, 0x20, 0x70, 9) := by decide

/-- V-M35; the second value is decision D7's first offending address, I itself. -/
theorem test_ldRegs_fault : (stepWord 0xF165 (State.reset.setI 0x10FE)).map faultView =
    some (true, 4, some (.memOutOfRange 0x10FF 0x10FE), 0x200) := by decide

/-! ## Display -/

/-- V-D14. -/
theorem test_cls : (stepWord 0x00E0 ((regs [(VF, 1)]).setDisp (setPixel clearDisplay 3 10 true))).map
    (fun t => (t.disp, t.v VF)) = some (clearDisplay, 1) := by decide

/-- V-D5: a collision. -/
theorem test_drw_collision : (stepWord 0xD011
    (poke ((State.reset.setI 0x300).setDisp (setPixel clearDisplay 0 1 true)) 0x300 [0xC0])).map
      (fun t => (pixel t.disp 0 0, pixel t.disp 0 1, t.v VF)) = some (true, false, 1) := by decide

/-- V-D4: both coordinates wrap. -/
theorem test_drw_wrap : (stepWord 0xD011 (poke ((regs [(0, 0xFF), (1, 0xFF)]).setI 0x300) 0x300 [0xFF])).map
    (fun t => (pixel t.disp 31 63, pixel t.disp 31 0, pixel t.disp 31 6, pixel t.disp 31 7, pixel t.disp 31 62)) =
      some (true, true, true, false, false) := by decide

/-! ## Keys, timers and the tick -/

/-- V-K1, V-K2. -/
theorem test_skp : (stepWord 0xE19E { regs [(1, 0x0A)] with keys := 0x0400 }).map (·.PC) = some 0x204 ∧
    (stepWord 0xE19E { regs [(1, 0x0A)] with keys := 0xFBFF }).map (·.PC) = some 0x202 := by decide

/-- V-K6. -/
theorem test_sknp : (stepWord 0xE1A1 { regs [(1, 0x0A)] with keys := 0x0400 }).map (·.PC) = some 0x202 ∧
    (stepWord 0xE1A1 (regs [(1, 0xFF)])).map faultView = some (true, 6, some (.keyIndexOutOfRange 0xFF), 0x200) := by decide

/-- V-K7, V-K9. -/
theorem test_ldVxK : (stepWord 0xF30A (regs [(3, 0x55)])).map (fun t => (t.v 3, t.PC)) = some (0x55, 0x200) ∧
    (stepWord 0xF30A { regs [(3, 0x55)] with keys := 0x0210 }).map (fun t => (t.v 3, t.PC)) = some (4, 0x202) := by decide

/-- V-T1. -/
theorem test_ldVxDt : (stepWord 0xF207 (State.reset.setDT 0x3C)).map (fun t => (t.v 2, t.DT)) = some (0x3C, 0x3C) := by decide

/-- V-T2. -/
theorem test_ldDtVx : (stepWord 0xF215 (regs [(2, 0x3C)])).map (·.DT) = some 0x3C := by decide

/-- V-T3. -/
theorem test_ldStVx : (stepWord 0xF218 (regs [(2, 1)])).map (fun t => (t.ST, portSoundOn t)) = some (1, true) := by decide

/-- V-T2, V-T3, V-T5: a timer at 0 stays there. -/
theorem test_tick : (stepped { (State.reset.setDT 0x3C).setST 0 with inputs := [.timerClk] }).map (fun t => (t.DT, t.ST)) =
    some (0x3B, 0) := by decide

/-- V-T7. -/
theorem test_tick_halted : (stepped { State.reset.setDT 5 with halted := true, inputs := [.timerClk] }).map (·.DT) =
    some 5 := by decide

/-! ## Fetch, unmatched words, reset -/

/-- V-F5. -/
theorem test_fetch_fault : (stepped { State.reset.setPC 0xFFF with inputs := [.instrClk 0 0] }).map faultView =
    some (true, 3, some (.fetchOutOfRange 0xFFF), 0xFFF) := by decide

/-- V-F8: an odd PC. -/
theorem test_fetch_odd : (stepWord 0x6A2F (State.reset.setPC 0x201)).map (fun t => (t.v 10, t.PC)) = some (0x2F, 0x203) := by
  decide

/-- V-F11, V-F14. -/
theorem test_unmatched : (stepWord 0x5121 (regs [(1, 7), (2, 7)])).map (·.PC) = some 0x202 ∧
    (stepWord 0x5121 strict).map faultView = some (true, 8, some (.unimplementedOpcode 0x5121), 0x200) := by decide

/-- V-R1, V-R5: reset of a halted state. -/
theorem test_reset : (stepped { State.reset.setDT 9 with halted := true, fault := 3, inputs := [.reset [0x12, 0x00]] }).map
    (fun t => (t.halted, t.fault, t.DT, readBytes t 0x200 3, t.readByte 0x4B)) =
      some (false, 0, 0, [0x12, 0, 0], 0xF0) := by decide

/-! ## Witnesses: each statement's hypotheses are met -/

open Instr

theorem witness_EncodeOfDecodedWord : decodeWord 0xFF65 = some (.ldRegs 15) := by decide

theorem witness_DecodeSelectsTheOnlyMatchingRow : decodeWord 0x8ABE = some (.shl 10 11) ∧ decodeWord 0x8128 = none := by decide

theorem witness_StepIsTheNextEventOfTheList :
    { State.reset with inputs := [.timerClk, .reset []] }.inputs = .timerClk :: [.reset []] := rfl

/-- The two ends of the fetch range. -/
theorem witness_StepRunsTheDecodedInstruction :
    (let s : State := { poke State.reset 0x200 [0x6A, 0x2F] with inputs := [.instrClk 0x8000 0xFF] }
     nextEvent s = .instrClk 0x8000 0xFF ∧ s.halted = false ∧ s.PC.toNat = 0x200 ∧
       decodeWord (wordOfBytes (s.readByte s.PC.toNat) (s.readByte (s.PC.toNat + 1))) = some (.ldImm 10 0x2F)) ∧
    (let s : State := { poke (State.reset.setPC 0xFFE) 0xFFE [0x30, 0x00] with inputs := [.instrClk 0 0] }
     nextEvent s = .instrClk 0 0 ∧ s.halted = false ∧ s.PC.toNat = 0xFFE ∧
       decodeWord (wordOfBytes (s.readByte s.PC.toNat) (s.readByte (s.PC.toNat + 1))) = some (.seImm 0 0)) := by decide

theorem witness_FetchOutsideTheProgramFaults :
    (State.reset.setPC 0x1FF).halted = false ∧ (State.reset.setPC 0x1FF).PC.toNat < 0x200 ∧
    (State.reset.setPC 0xFFF).halted = false ∧ 0xFFE < (State.reset.setPC 0xFFF).PC.toNat := by decide

theorem witness_UnmatchedWordIsNoOpOrStrictFault :
    (State.reset.halted = false ∧ fetch State.reset = .ok 0 ∧ decodeWord 0 = none ∧ State.reset.cfg.strictDecode = false) ∧
    (strict.halted = false ∧ fetch strict = .ok 0 ∧ decodeWord 0 = none ∧ strict.cfg.strictDecode = true) :=
  ⟨⟨rfl, rfl, rfl, rfl⟩, rfl, rfl, rfl, rfl⟩

theorem witness_CycleFaultsExactlyByTheTable :
    (State.reset.halted = false ∧ cycleFault State.reset = none) ∧
    (strict.halted = false ∧ cycleFault strict = some (.unimplementedOpcode 0)) := by decide

theorem witness_FaultingCycleChangesOnlyTheFaultStatus :
    ∃ t, strict.halted = false ∧ instructionCycle 0 0 strict = .next t ∧ t.halted = true :=
  ⟨_, rfl, rfl, rfl⟩

theorem witness_HaltedMachineIsFrozenUntilReset :
    (let s : State := { State.reset with halted := true, inputs := [.timerClk] }
     s.halted = true ∧ ∀ rom, nextEvent s ≠ .reset rom) ∧
    (let s : State := { State.reset with halted := true, inputs := [.instrClk 1 2] }
     s.halted = true ∧ ∀ rom, nextEvent s ≠ .reset rom) :=
  ⟨⟨rfl, fun _ h => nomatch h⟩, rfl, fun _ h => nomatch h⟩

/-- The longest ROM; the last address of the font, the first and last addresses a reset leaves at 0. -/
theorem witness_ResetBuildsAFreshMachine :
    State.reset.cfg.wf = true ∧ (List.replicate 3584 (0xFF : Byte)).length ≤ 3584 ∧
    inFont State.reset.cfg 0x4F = true ∧ inFont State.reset.cfg 0x50 = false ∧
    (inFont State.reset.cfg 0xFFF = false ∧ 0x200 + ([0x12, 0x00] : List Byte).length ≤ 0xFFF) := by
  exact ⟨by decide, Nat.le_of_eq List.length_replicate, by decide, by decide, by decide, by decide⟩

theorem witness_TooLargeRomHaltsAtReset : 3584 < (List.replicate 3585 (0 : Byte)).length := by
  rw [List.length_replicate]; decide

theorem inv_reset : Invariant State.reset where
  config := by decide
  memory := rfl
  glyphs := fun _ _ => rfl
  pc := by decide
  index := by decide
  stack := by decide
  status := by decide
  schedule := by decide

theorem witness_EveryStepKeepsInv : ∃ t, Invariant State.reset ∧ step State.reset = .next t := ⟨_, inv_reset, rfl⟩

/-- Targets on both sides of the fetch range. -/
theorem witness_JumpSetsPCOnly : (0x1FF : BitVec 12).toNat < 0x200 ∧ 0xFFE < (0xFFF : BitVec 12).toNat := by decide

theorem witness_CallPushesTheReturnAddress :
    State.reset.SP.val < 16 ∧ { State.reset with SP := 15 }.SP.val < 16 := by decide

theorem witness_SeventeenthCallOverflows : fullStack.SP = 16 := rfl

theorem witness_ReturnPopsTheTopEntry : 0 < { State.reset with SP := 1 }.SP.val ∧ 0 < fullStack.SP.val := by decide

theorem witness_ReturnOnEmptyStackUnderflows : State.reset.SP = 0 := rfl

theorem witness_ReturnResumesAfterTheCall :
    ∃ t u : State, State.reset.SP.val < 16 ∧ exec (.call 0x300) State.reset = .next t ∧ u.SP = t.SP ∧ u.stack = t.stack ∧
      u.PC = 0x400 :=
  ⟨_, (({ State.reset with stack := State.reset.stack.set 0 0x202, SP := 1 } : State).setPC 0x400), by decide, rfl, rfl, rfl, rfl⟩

theorem witness_SkipsOnRegisters : (1 : BitVec 4) ≠ 0 ∧ (15 : BitVec 4) ≠ 0 := by decide

/-- One case of every row of the table: a fault, a jump, a return, a skip, both outcomes of the key wait, the default. -/
theorem witness_PCAfterEveryInstruction :
    (after .ret State.reset).map (·.halted) = some true ∧
    (after (.jp 0xFFF) State.reset).map (·.halted) = some false ∧
    (after .ret { State.reset with SP := 1 }).map (·.halted) = some false ∧
    (after (.skp 0) State.reset).map (·.halted) = some false ∧
    (after (.ldVxK 3) State.reset).map (·.halted) = some false ∧
    (after (.ldVxK 3) { State.reset with keys := 0x8000 }).map (·.halted) = some false ∧
    (after .cls State.reset).map (·.halted) = some false := by decide

/-- The clauses with x different from VF, beside those with x = VF, which have no hypothesis. -/
theorem witness_AddSetsSumAndCarry : (0 : Reg) ≠ VF ∧ (14 : Reg) ≠ VF := by decide

theorem witness_SubtractSetsDifferenceAndNoBorrow : (0 : Reg) ≠ VF ∧ (14 : Reg) ≠ VF := by decide

theorem witness_ShiftsMoveVxAndKeepTheLostBit : (0 : Reg) ≠ VF ∧ (14 : Reg) ≠ VF := by decide

theorem witness_RegistersChangeOnlyAsTheTableSays :
    ∃ t, exec (.addReg 0 1) (regs [(0, 0xFF), (1, 1)]) = .next t ∧ t.v VF ≠ (regs [(0, 0xFF), (1, 1)]).v VF :=
  ⟨_, rfl, by decide⟩

theorem witness_FontLookupGivesTheGlyphAddress :
    ((regs [(2, 15)]).cfg.wf = true ∧ ((regs [(2, 15)]).v 2).toNat ≤ 15) ∧ 15 < ((regs [(2, 16)]).v 2).toNat := by decide

/-- The highest three bytes, and the first three above the font. -/
theorem witness_BcdStoresThreeDigits : storeAllowed (State.reset.setI 0xFFD) 3 ∧ storeAllowed (State.reset.setI 0x50) 3 := by
  unfold storeAllowed; decide

theorem witness_StoreRegistersCopiesV0ToVx :
    storeAllowed (State.reset.setI 0xFF0) ((15 : Reg).val + 1) ∧ storeAllowed (State.reset.setI 0xFFF) ((0 : Reg).val + 1) := by
  unfold storeAllowed; decide

theorem witness_LoadRegistersCopiesToV0ToVx :
    (State.reset.setI 0xFF0).I.toNat + (15 : Reg).val ≤ 0xFFF ∧ (State.reset.setI 0).I.toNat + (0 : Reg).val ≤ 0xFFF := by decide

/-- Each clause at the first address that faults; the glyph clauses at the last byte of the font and just below a font at 0x010. -/
theorem witness_MemoryAccessFaults :
    0xFFF < (State.reset.setI 0xFFE).I.toNat + 2 ∧ 0xFFF < (State.reset.setI 0xFF1).I.toNat + (15 : Reg).val ∧
    (1 ≤ (2 : BitVec 4).toNat ∧ 0xFFF < (State.reset.setI 0xFFF).I.toNat + (2 : BitVec 4).toNat - 1) ∧
    ((State.reset.setI 0x4F).I.toNat ≤ 0x4F ∧ inFont (State.reset.setI 0x4F).cfg 0x4F = true) ∧
    ((highFont.setI 0x0E).I.toNat ≤ 0x10 ∧ inFont (highFont.setI 0x0E).cfg 0x10 = true ∧
      (∀ a, a < 0x10 → 0x0E ≤ a → inFont (highFont.setI 0x0E).cfg a = false) ∧
      0x10 ≤ (highFont.setI 0x0E).I.toNat + 2 ∧ 0x10 ≤ (highFont.setI 0x0E).I.toNat + (2 : Reg).val) := by decide

theorem witness_StoredRegistersLoadBack :
    ∃ t, storeAllowed (State.reset.setI 0xFF0) ((15 : Reg).val + 1) ∧ exec (.stRegs 15) (State.reset.setI 0xFF0) = .next t ∧
      t.setDT 7 ≠ t ∧ (t.setDT 7).mem = t.mem ∧ (t.setDT 7).cfg = t.cfg ∧ (t.setDT 7).I = (State.reset.setI 0xFF0).I :=
  ⟨_, by unfold storeAllowed; decide, rfl, by decide, rfl, rfl, rfl⟩

/-- The first and the last address a fetch can start at. -/
theorem witness_StoredBytesAreFetched :
    (storeAllowed (State.reset.setI 0x200) ((1 : Reg).val + 1) ∧ (0 : Reg).val + 1 ≤ (1 : Reg).val ∧
      0x200 ≤ (State.reset.setI 0x200).I.toNat + (0 : Reg).val) ∧
    (storeAllowed (State.reset.setI 0xFF0) ((15 : Reg).val + 1) ∧ (14 : Reg).val + 1 ≤ (15 : Reg).val ∧
      (State.reset.setI 0xFF0).I.toNat + (14 : Reg).val ≤ 0xFFE) := by
  unfold storeAllowed; decide

/-- Each clause: a step that changes the piece. -/
theorem witness_EveryPieceHasItsWriters :
    ((after (.ldI 1) State.reset).map (·.I != 0)) = some true ∧
    ((after (.call 0x300) State.reset).map (·.SP != 0)) = some true ∧
    ((after (.ldDtVx 0) (regs [(0, 1)])).map (·.DT != 0)) = some true ∧
    ((after (.ldStVx 0) (regs [(0, 1)])).map (·.ST != 0)) = some true ∧
    ((after (.drw 0 1 1) State.reset).map (fun t => pixel t.disp 0 0)) = some true ∧
    ((after (.stRegs 0) ((regs [(0, 1)]).setI 0x300)).map (fun t => t.readByte 0x300 != 0)) = some true := by decide

theorem witness_DrawIsXorWithCollision :
    (0 : BitVec 4) = 0 ∧ (State.reset.setI 0xFF1).I.toNat + (15 : BitVec 4).toNat - 1 ≤ 0xFFF := by decide

theorem witness_DrawingTwiceRestoresTheDisplay :
    ∃ t, State.reset.I.toNat + (5 : BitVec 4).toNat - 1 ≤ 0xFFF ∧ exec (.drw 0 1 5) State.reset = .next t ∧
      t.v 0 = State.reset.v 0 ∧ t.v 1 = State.reset.v 1 :=
  ⟨_, by decide, rfl, by decide, by decide⟩

theorem witness_KeySkipsTestTheSampledLevel :
    ((regs [(1, 15)]).v 1).toNat ≤ 15 ∧ 15 < ((regs [(1, 16)]).v 1).toNat := by decide

/-- The smallest key, the largest key alone, no key. -/
theorem witness_KeyWaitRecordsTheSmallestKey :
    ({ State.reset with keys := 0xFFFF }.keys.getLsbD 0 = true) ∧
    ({ State.reset with keys := 0x8000 }.keys.getLsbD 15 = true ∧
      ∀ j, j < 15 → { State.reset with keys := 0x8000 }.keys.getLsbD j = false) ∧
    (∀ k, k < 16 → State.reset.keys.getLsbD k = false) := by decide

/-- A wait of two cycles with a tick between them. -/
theorem witness_KeyWaitHoldsWhileTheTimersRun :
    (∀ e ∈ ([.instrClk 0 7, .timerClk, .instrClk 0 9] : List Event), e = .timerClk ∨ ∃ rand, e = .instrClk 0 rand) ∧
    fetch (poke State.reset 0x200 [0xF3, 0x0A]) = .ok 0xF30A ∧ decodeWord 0xF30A = some (.ldVxK 3) := by
  refine ⟨?_, rfl, by decide⟩
  intro e he
  simp at he
  rcases he with rfl | rfl | rfl <;> simp

theorem witness_TickCountsBothTimersDown :
    { State.reset with inputs := [.timerClk] }.inputs = .timerClk :: [] ∧
    { State.reset with halted := true }.halted = true ∧ State.reset.halted = false := ⟨rfl, rfl, rfl⟩

theorem witness_TimersCountEveryTick :
    (State.reset.setDT 2).halted = false ∧
    ({ State.reset.setDT 2 with inputs := [.timerClk, .timerClk, .timerClk] } : State).inputs =
      List.replicate 3 .timerClk ++ [] := ⟨rfl, rfl⟩

theorem witness_TicksCommuteWithOtherInstructions :
    ∃ t ticked, (∀ x, Instr.cls ≠ .ldVxDt x ∧ Instr.cls ≠ .ldDtVx x ∧ Instr.cls ≠ .ldStVx x) ∧
      (State.reset.setDT 2).halted = false ∧ exec .cls (State.reset.setDT 2) = .next t ∧ t.halted = false ∧
      timerTick (State.reset.setDT 2) = .next ticked :=
  ⟨_, _, by simp, rfl, rfl, rfl, rfl⟩

theorem witness_ReferenceScheduleTicksSixtyTimes :
    0 < State.reset.cfg.instrHz ∧ State.reset.inputs = [] ∧ State.reset.tickAcc = 0 := by decide

theorem witness_PortsAreSeenOnlyByTheirInstructions :
    ∃ t, exec .cls State.reset = .next t ∧ (∀ x, Instr.cls ≠ .skp x ∧ Instr.cls ≠ .sknp x ∧ Instr.cls ≠ .ldVxK x) ∧
      ∀ x kk, Instr.cls ≠ .rnd x kk :=
  ⟨_, rfl, by simp, by simp⟩

/-- V-C3: the word 0x1200 at 0x200. -/
theorem witness_EndOfRunIsStable : (poke State.reset 0x200 [0x12, 0x00]).endOfRun :=
  ⟨rfl, 0x200, rfl, by decide⟩

end Sys2Proof.Tests
end

section
/-! Skips on an immediate (40_flow.md R87, R88, R91). -/

namespace Sys2Proof

/-! ### The words of the two skips (30_encoding.md R62, R65) -/

@[simp] theorem decodeWord_encXKK_3 (x : Reg) (kk : Byte) : decodeWord (encXKK 0x3 x kk) = some (.seImm x kk) := by
  simp [decodeWord]

@[simp] theorem decodeWord_encXKK_4 (x : Reg) (kk : Byte) : decodeWord (encXKK 0x4 x kk) = some (.sneImm x kk) := by
  simp [decodeWord]

namespace Machine

/-! ### The frame of a write to PC -/

/-- Shared by every instruction whose one effect is on PC. -/
theorem changesOnly_setPC (s : State) (w : Word) : ChangesOnly (· = .pc) s (s.setPC w) := by
  intro c
  cases c with
  | pc => exact .inl rfl
  | faultStatus | environment => exact .inr ⟨rfl, rfl, rfl⟩
  | _ => exact .inr rfl

theorem changesOnly_skipIf (s : State) (c : Bool) : ChangesOnly (· = .pc) s (s.skipIf c) := changesOnly_setPC s _

/-! ### What the two skips do -/

theorem exec_seImm (x : Reg) (kk : Byte) (s : State) : exec (.seImm x kk) s = .next (s.skipIf (s.v x == kk)) := rfl

theorem exec_sneImm (x : Reg) (kk : Byte) (s : State) : exec (.sneImm x kk) s = .next (s.skipIf (s.v x != kk)) := rfl

/-- A skip on equality of two bytes, by their unsigned values (R87). -/
theorem skipIf_beq_PC (s : State) (a b : Byte) :
    (s.skipIf (a == b)).PC = if a.toNat = b.toNat then s.PC + 4 else s.PC + 2 := by
  simp [BitVec.toNat_inj]

/-- A skip on two bytes that differ, by their unsigned values (R88). -/
theorem skipIf_bne_PC (s : State) (a b : Byte) :
    (s.skipIf (a != b)).PC = if a.toNat = b.toNat then s.PC + 2 else s.PC + 4 := by
  by_cases h : a = b <;> simp [h, BitVec.toNat_inj]

/-- Settles O23: both skips are one conditional skip, on the equality of Vx and kk or on its opposite. -/
theorem skipsOnImmediate : Obligations.SkipsOnImmediate := fun s x kk =>
  ⟨decodeWord_encXKK_3 x kk, decodeWord_encXKK_4 x kk,
    ⟨_, exec_seImm x kk s, skipIf_beq_PC s _ _, changesOnly_skipIf s _⟩,
    ⟨_, exec_sneImm x kk s, skipIf_bne_PC s _ _, changesOnly_skipIf s _⟩⟩

end Machine

end Sys2Proof
end

section
/-! Register loads and the flagless addition (41_alu.md R101 to R103): each writes one register and advances. -/

namespace Sys2Proof

/-! ### The words of the three instructions (30_encoding.md R62, R65) -/

@[simp] theorem decodeWord_encXKK_6 (x : Reg) (kk : Byte) : decodeWord (encXKK 0x6 x kk) = some (.ldImm x kk) := by
  simp [decodeWord]

@[simp] theorem decodeWord_encXKK_7 (x : Reg) (kk : Byte) : decodeWord (encXKK 0x7 x kk) = some (.addImm x kk) := by
  simp [decodeWord]

@[simp] theorem decodeWord_encXYN_8_0 (x y : Reg) : decodeWord (encXYN 0x8 x y 0x0) = some (.ldReg x y) := by
  simp [decodeWord, decode8]

namespace Machine

/-! ### Writing one register and advancing -/

/-- Shared by every instruction whose one effect beside the advance is on a single register. -/
theorem changesOnly_setV_advance (s : State) (x : Reg) (b : Byte) :
    ChangesOnly (fun c => c = .v x ∨ c = .pc) s (s.setV x b).advance := by
  intro c
  cases c with
  | v y =>
    by_cases h : x = y
    · exact .inl (.inl (h ▸ rfl))
    · exact .inr (by simp [SameAt, h])
  | pc => exact .inl (.inr rfl)
  | faultStatus | environment => exact .inr ⟨rfl, rfl, rfl⟩
  | _ => exact .inr rfl

theorem setV_advance_v_same (s : State) (x : Reg) (b : Byte) : ((s.setV x b).advance).v x = b := by
  simp

/-! ### What the three instructions do -/

theorem exec_ldImm (x : Reg) (kk : Byte) (s : State) : exec (.ldImm x kk) s = .next (s.setV x kk).advance := rfl

theorem exec_addImm (x : Reg) (kk : Byte) (s : State) :
    exec (.addImm x kk) s = .next (s.setV x (s.v x + kk)).advance := rfl

theorem exec_ldReg (x y : Reg) (s : State) : exec (.ldReg x y) s = .next (s.setV x (s.v y)).advance := rfl

/-- Settles O26: the register written is x and the byte is kk, so VF changes only as Vx. -/
theorem loadImmediateSetsVx : Obligations.LoadImmediateSetsVx := fun s x kk =>
  ⟨decodeWord_encXKK_6 x kk, _, exec_ldImm x kk s, setV_advance_v_same s x kk, rfl, changesOnly_setV_advance s x kk⟩

/-- Settles O27: the byte written is an 8-bit sum, which is the sum modulo 256. -/
theorem addImmediateWrapsWithoutFlag : Obligations.AddImmediateWrapsWithoutFlag := fun s x kk => by
  refine ⟨decodeWord_encXKK_7 x kk, _, exec_addImm x kk s, ?_, rfl, changesOnly_setV_advance s x _⟩
  rw [setV_advance_v_same, BitVec.toNat_add]

/-- Settles O28: the byte written is Vy as it was before, so with x = y no register changes. -/
theorem copySetsVxToVy : Obligations.CopySetsVxToVy := fun s x y =>
  ⟨decodeWord_encXYN_8_0 x y, _, exec_ldReg x y s, setV_advance_v_same s x _, rfl, changesOnly_setV_advance s x _⟩

end Machine

end Sys2Proof
end

section
/-! Loading the index register with an immediate address (42_index_memory.md R120). -/

namespace Sys2Proof

/-- The word of Annn (30_encoding.md R62, R65). -/
@[simp] theorem decodeWord_encNNN_A (nnn : BitVec 12) : decodeWord (encNNN 0xA nnn) = some (.ldI nnn) := by
  simp [decodeWord]

namespace Machine

/-- Twelve bits fit the 16 of an address register, so the zero-extension loses nothing (R63). -/
@[simp] theorem toNat_addrOf (nnn : BitVec 12) : (addrOf nnn).toNat = nnn.toNat :=
  BitVec.toNat_setWidth_of_le (by decide)

/-! ### Writing I and advancing -/

/-- Shared by every instruction whose one effect beside the advance is on I. -/
theorem changesOnly_setI_advance (s : State) (w : Word) :
    ChangesOnly (fun c => c = .index ∨ c = .pc) s (s.setI w).advance := by
  intro c
  cases c with
  | index => exact .inl (.inl rfl)
  | pc => exact .inl (.inr rfl)
  | faultStatus | environment => exact .inr ⟨rfl, rfl, rfl⟩
  | _ => exact .inr rfl

theorem exec_ldI (nnn : BitVec 12) (s : State) : exec (.ldI nnn) s = .next (s.setI (addrOf nnn)).advance := rfl

/-- Settles O35: the word written to I is the zero-extension of nnn, with no range check, so every nnn is accepted. -/
theorem loadIndexSetsI : Obligations.LoadIndexSetsI := fun s nnn =>
  ⟨decodeWord_encNNN_A nnn, _, exec_ldI nnn s, toNat_addrOf nnn, rfl, changesOnly_setI_advance s (addrOf nnn)⟩

end Machine

end Sys2Proof
end

section
/-! Clearing the display (43_display.md R141). -/

namespace Sys2Proof

/-- The word of 00E0 has no operand field (30_encoding.md R65). -/
@[simp] theorem decodeWord_00E0 : decodeWord 0x00E0 = some .cls := by decide

namespace Machine

/-! ### Writing the display and advancing -/

/-- Shared by every instruction whose one effect beside the advance is on the display. -/
theorem changesOnly_setDisp_advance (s : State) (d : Display) :
    ChangesOnly (fun c => c = .pc ∨ ∃ r k, c = .pixel r k) s (s.setDisp d).advance := by
  intro c
  cases c with
  | pc => exact .inl (.inl rfl)
  | pixel r k => exact .inl (.inr ⟨r, k, rfl⟩)
  | faultStatus | environment => exact .inr ⟨rfl, rfl, rfl⟩
  | _ => exact .inr rfl

theorem exec_cls (s : State) : exec .cls s = .next (s.setDisp clearDisplay).advance := rfl

/-- Settles O45: the display written is the cleared one, and no register is written, so VF stays. -/
theorem clearZeroesTheDisplay : Obligations.ClearZeroesTheDisplay := fun s =>
  ⟨decodeWord_00E0, _, exec_cls s, pixel_clearDisplay, rfl, changesOnly_setDisp_advance s clearDisplay⟩

end Machine

end Sys2Proof
end

section
/-! Reading the delay timer (44_keys_timers.md R153). -/

namespace Sys2Proof

/-- The word of Fx07 (30_encoding.md R62, R65): the low byte selects the instruction among those with top nibble F. -/
@[simp] theorem decodeWord_encXKK_F_07 (x : Reg) : decodeWord (encXKK 0xF x 0x07) = some (.ldVxDt x) := by
  simp [decodeWord, decodeF]

namespace Machine

theorem exec_ldVxDt (x : Reg) (s : State) : exec (.ldVxDt x) s = .next (s.setV x s.DT).advance := rfl

/-- Settles O51: the byte written to Vx is DT as the state holds it, and writing a register leaves DT alone. -/
theorem readDelayTimer : Obligations.ReadDelayTimer := fun s x =>
  ⟨decodeWord_encXKK_F_07 x, _, exec_ldVxDt x s, setV_advance_v_same s x s.DT, rfl, rfl, changesOnly_setV_advance s x s.DT⟩

end Machine

end Sys2Proof
end

section
/-! The decoder and the encoder are inverse to each other, and both agree with the opcode table (30_encoding.md R60 to R66). -/

namespace Sys2Proof

/-! ### Decoding an encoded instruction -/

theorem decodeWord_encode (i : Instr) : decodeWord (encode i) = some i := by
  cases i with
  | cls | ret => decide
  | jp | call | ldI | ldIV0 => simp [encode, decodeWord]
  | seImm | sneImm | ldImm | addImm | rnd => simp [encode, decodeWord]
  | seReg | sneReg => simp [encode, decodeWord, decodeN0]
  | ldReg | orReg | andReg | xorReg | addReg | sub | shr | subn | shl => simp [encode, decodeWord, decode8]
  | drw => simp [encode, decodeWord]
  | skp | sknp => simp [encode, decodeWord, decodeE]
  | ldVxDt | ldVxK | ldDtVx | ldStVx | ldFVx | ldBVx | stRegs | ldRegs => simp [encode, decodeWord, decodeF]

/-- The two bytes of a word, read back, are that word, and what follows them is left over (R60; 20_memory.md R42). -/
theorem decode_bytesOfWord {w : Word} {i : Instr} (h : decodeWord w = some i) (rest : List Byte) :
    decode (bytesOfWord w ++ rest) = .ok (i, rest) := by
  simp [bytesOfWord, decode, h]

/-- Settles O1: the two bytes join to the word again, and that word decodes to its instruction. -/
theorem decodeOfEncodedBytes : Obligations.DecodeOfEncodedBytes := fun i rest =>
  decode_bytesOfWord (decodeWord_encode i) rest

/-! ### Encoding a decoded word: each part of the decoder only accepts the fixed bits of its rows -/

theorem encode_of_decode0 {w : Word} {i : Instr} (h : decode0 w = some i) : encode i = w := by
  unfold decode0 at h
  split at h
  · cases h; exact Eq.symm ‹_›
  · split at h
    · cases h; exact Eq.symm ‹_›
    · cases h

theorem decodeN0_some_iff {w : Word} {i j : Instr} : decodeN0 w i = some j ↔ fieldN w = 0 ∧ i = j := by
  simp [decodeN0]

theorem encode_of_decode8 {x y : Reg} {n : BitVec 4} {i : Instr} (h : decode8 x y n = some i) :
    encode i = encXYN 0x8 x y n := by
  unfold decode8 at h
  repeat' split at h
  all_goals cases h
  all_goals subst n; rfl

theorem encode_of_decodeE {x : Reg} {kk : Byte} {i : Instr} (h : decodeE x kk = some i) : encode i = encXKK 0xE x kk := by
  unfold decodeE at h
  repeat' split at h
  all_goals cases h
  all_goals subst kk; rfl

theorem encode_of_decodeF {x : Reg} {kk : Byte} {i : Instr} (h : decodeF x kk = some i) : encode i = encXKK 0xF x kk := by
  unfold decodeF at h
  repeat' split at h
  all_goals cases h
  all_goals subst kk; rfl

theorem encode_of_decodeWord {w : Word} {i : Instr} (h : decodeWord w = some i) : encode i = w := by
  have hNNN (op : BitVec 4) (hop : (fieldOp w).toNat = op.toNat) : encNNN op (fieldNNN w) = w := by
    rw [← BitVec.eq_of_toNat_eq hop, ← word_eq_encNNN]
  have hXKK (op : BitVec 4) (hop : (fieldOp w).toNat = op.toNat) : encXKK op (fieldX w) (fieldKK w) = w := by
    rw [← BitVec.eq_of_toNat_eq hop, ← word_eq_encXKK]
  have hXYN (op : BitVec 4) (hop : (fieldOp w).toNat = op.toNat) :
      encXYN op (fieldX w) (fieldY w) (fieldN w) = w := by
    rw [← BitVec.eq_of_toNat_eq hop, ← word_eq_encXYN]
  unfold decodeWord at h
  split at h
  case h_1 => exact encode_of_decode0 h
  case h_6 hop =>
    obtain ⟨hn, rfl⟩ := decodeN0_some_iff.mp h
    have := hXYN 0x5 hop
    rwa [hn] at this
  case h_9 hop => rw [encode_of_decode8 h, hXYN 0x8 hop]
  case h_10 hop =>
    obtain ⟨hn, rfl⟩ := decodeN0_some_iff.mp h
    have := hXYN 0x9 hop
    rwa [hn] at this
  case h_14 hop => cases h; exact hXYN 0xD hop
  case h_15 hop => rw [encode_of_decodeE h, hXKK 0xE hop]
  case h_16 hop => rw [encode_of_decodeF h, hXKK 0xF hop]
  case h_17 => cases h
  case h_2 hop | h_3 hop | h_11 hop | h_12 hop => cases h; exact hNNN _ hop
  all_goals cases h; exact hXKK _ ‹_›

/-- Settles O2: the fields of the word stand where the encoder puts them, and its fixed bits are those of the row. -/
theorem encodeOfDecodedWord : Obligations.EncodeOfDecodedWord := fun _ _ h => encode_of_decodeWord h

end Sys2Proof
end

section
/-! The decoder and the opcode table select the same row (30_encoding.md R64 to R66). -/

namespace Sys2Proof

/-! ### A mask that covers a field keeps it -/

theorem fieldOp_masked {w m : Word} (h : fieldOp m = 0xF) : fieldOp (w &&& m) = fieldOp w := by
  have : fieldOp (w &&& m) = fieldOp w &&& fieldOp m := BitVec.extractLsb'_and
  rw [this, h]; exact BitVec.and_allOnes

theorem fieldN_masked {w m : Word} (h : fieldN m = 0xF) : fieldN (w &&& m) = fieldN w := by
  have : fieldN (w &&& m) = fieldN w &&& fieldN m := BitVec.extractLsb'_and
  rw [this, h]; exact BitVec.and_allOnes

theorem fieldKK_masked {w m : Word} (h : fieldKK m = 0xFF) : fieldKK (w &&& m) = fieldKK w := by
  have : fieldKK (w &&& m) = fieldKK w &&& fieldKK m := BitVec.extractLsb'_and
  rw [this, h]; exact BitVec.and_allOnes

/-! ### Which row a word selects -/

/-- The name of the row a word decodes to, if any. -/
def rowName (w : Word) : Option String := (decodeWord w).map mnemonicOf

theorem mnemonicOf_decode8 (x y x' y' : Reg) (n : BitVec 4) :
    (decode8 x y n).map mnemonicOf = (decode8 x' y' n).map mnemonicOf := by
  simp only [decode8, apply_ite (Option.map mnemonicOf), Option.map_some, mnemonicOf]

theorem mnemonicOf_decodeE (x x' : Reg) (kk : Byte) : (decodeE x kk).map mnemonicOf = (decodeE x' kk).map mnemonicOf := by
  simp only [decodeE, apply_ite (Option.map mnemonicOf), Option.map_some, mnemonicOf]

theorem mnemonicOf_decodeF (x x' : Reg) (kk : Byte) : (decodeF x kk).map mnemonicOf = (decodeF x' kk).map mnemonicOf := by
  simp only [decodeF, apply_ite (Option.map mnemonicOf), Option.map_some, mnemonicOf]

/-- The primary opcode selects the row, together with the whole word for 0, with the bottom nibble for 5, 8 and 9, and with
the low byte for E and F (R65). -/
theorem rowName_congr {w v : Word} (hop : fieldOp w = fieldOp v) (h0 : (fieldOp v).toNat = 0 → w = v)
    (hN : (fieldOp v).toNat ∈ [5, 8, 9] → fieldN w = fieldN v)
    (hKK : (fieldOp v).toNat ∈ [14, 15] → fieldKK w = fieldKK v) : rowName w = rowName v := by
  unfold rowName decodeWord
  rw [hop]
  split
  case h_1 op => rw [h0 op]
  case h_6 op | h_10 op => unfold decodeN0; rw [hN (by simp [op])]; split <;> rfl
  case h_9 op => rw [hN (by simp [op])]; exact mnemonicOf_decode8 ..
  case h_15 op => rw [hKK (by simp [op])]; exact mnemonicOf_decodeE ..
  case h_16 op => rw [hKK (by simp [op])]; exact mnemonicOf_decodeF ..
  all_goals rfl

/-- The mask of a row covers the fields that select it. -/
theorem mask_covers : ∀ row ∈ opcodeTable, fieldOp row.mask = 0xF ∧
    ((fieldOp row.value).toNat = 0 → row.mask = 0xFFFF) ∧
    ((fieldOp row.value).toNat ∈ [5, 8, 9] → fieldN row.mask = 0xF) ∧
    ((fieldOp row.value).toNat ∈ [14, 15] → fieldKK row.mask = 0xFF) := by decide

theorem rowName_value : ∀ row ∈ opcodeTable, rowName row.value = some row.mnemonic := by decide

/-- No two rows have the same name. -/
theorem mnemonic_injective : ∀ row ∈ opcodeTable, ∀ row' ∈ opcodeTable, row.mnemonic = row'.mnemonic → row = row' := by decide

theorem rowName_of_matchesWord {w : Word} {row : OpcodeRow} (hr : row ∈ opcodeTable) (hm : row.matchesWord w = true) :
    rowName w = some row.mnemonic := by
  obtain ⟨hop, h0, hN, hKK⟩ := mask_covers row hr
  have hv : row.value = w &&& row.mask := Eq.symm (by simpa [OpcodeRow.matchesWord] using hm)
  rw [← rowName_value row hr]
  refine rowName_congr ?_ (fun h => ?_) (fun h => ?_) (fun h => ?_)
  · rw [hv, fieldOp_masked hop]
  · rw [hv, h0 h]; exact BitVec.and_allOnes.symm
  · rw [hv, fieldN_masked (hN h)]
  · rw [hv, fieldKK_masked (hKK h)]

/-! ### The row of an instruction matches its word -/

open Laws.RowMatch in
theorem rowMatch_statement : ∀ i : Instr, Statement i
  | .cls => cls | .ret => ret | .jp nnn => jp nnn | .call nnn => call nnn
  | .seImm x kk => seImm x kk | .sneImm x kk => sneImm x kk | .seReg x y => seReg x y | .sneReg x y => sneReg x y
  | .ldImm x kk => ldImm x kk | .addImm x kk => addImm x kk | .ldReg x y => ldReg x y
  | .orReg x y => orReg x y | .andReg x y => andReg x y | .xorReg x y => xorReg x y
  | .addReg x y => addReg x y | .sub x y => sub x y | .subn x y => subn x y | .shr x y => shr x y | .shl x y => shl x y
  | .ldI nnn => ldI nnn | .ldIV0 nnn => ldIV0 nnn | .rnd x kk => rnd x kk | .drw x y n => drw x y n
  | .skp x => skp x | .sknp x => sknp x | .ldVxDt x => ldVxDt x | .ldVxK x => ldVxK x
  | .ldDtVx x => ldDtVx x | .ldStVx x => ldStVx x | .ldFVx x => ldFVx x | .ldBVx x => ldBVx x
  | .stRegs x => stRegs x | .ldRegs x => ldRegs x

theorem exists_row_of_decodeWord {w : Word} {i : Instr} (h : decodeWord w = some i) :
    ∃ row ∈ opcodeTable, row.mnemonic = mnemonicOf i ∧ row.matchesWord w = true := by
  rw [← encode_of_decodeWord h]
  exact rowMatch_statement i

/-- Settles O3: a row that matches gives the word its name, the instruction's row matches its word, and names are distinct. -/
theorem decodeSelectsTheOnlyMatchingRow : Obligations.DecodeSelectsTheOnlyMatchingRow := by
  refine fun w => ⟨⟨fun hnone row hr => ?_, fun hall => ?_⟩, fun i hi row hr => ⟨fun hm => ?_, fun hname => ?_⟩⟩
  · refine Bool.eq_false_iff.mpr fun hm => ?_
    have := rowName_of_matchesWord hr hm
    simp [rowName, hnone] at this
  · cases hd : decodeWord w with
    | none => rfl
    | some i =>
      obtain ⟨row, hr, -, hm⟩ := exists_row_of_decodeWord hd
      simp [hall row hr] at hm
  · have := rowName_of_matchesWord hr hm
    simpa [rowName, hi] using this.symm
  · obtain ⟨row', hr', hname', hm⟩ := exists_row_of_decodeWord hi
    rwa [mnemonic_injective row hr row' hr' (hname.trans hname'.symm)]

/-- Settles O4: eighteen words, each evaluated. -/
theorem decodesTheWordsOfTheSpec : Obligations.DecodesTheWordsOfTheSpec := by
  unfold Obligations.DecodesTheWordsOfTheSpec
  decide

end Sys2Proof
end

section
/-! The frame: how unchanged pieces compose, and what each operation on the state can change. -/

namespace Sys2Proof.Machine

/-! ### Composing frames -/

theorem SameAt.refl (s : State) (c : Component) : SameAt s s c := by
  cases c with
  | faultStatus | environment => exact ⟨rfl, rfl, rfl⟩
  | _ => exact rfl

theorem SameAt.trans {s t u : State} {c : Component} (hst : SameAt s t c) (htu : SameAt t u c) : SameAt s u c := by
  cases c with
  | faultStatus | environment => exact ⟨htu.1.trans hst.1, htu.2.1.trans hst.2.1, htu.2.2.trans hst.2.2⟩
  | _ => exact Eq.trans htu hst

theorem ChangesOnly.refl (P : Component → Prop) (s : State) : ChangesOnly P s s := fun c => .inr (.refl s c)

theorem ChangesOnly.trans {P : Component → Prop} {s t u : State} (hst : ChangesOnly P s t) (htu : ChangesOnly P t u) :
    ChangesOnly P s u := fun c =>
  (hst c).elim .inl fun h => (htu c).imp_right h.trans

theorem ChangesOnly.mono {P Q : Component → Prop} {s t : State} (h : ChangesOnly P s t) (hPQ : ∀ c, P c → Q c) :
    ChangesOnly Q s t := fun c =>
  (h c).imp_left (hPQ c)

/-! ### The frame of each operation -/

theorem changesOnly_setV (s : State) (x : Reg) (b : Byte) : ChangesOnly (· = .v x) s (s.setV x b) := by
  intro c
  cases c with
  | v y =>
    by_cases h : x = y
    · exact .inl (h ▸ rfl)
    · exact .inr (by simp [SameAt, h])
  | faultStatus | environment => exact .inr ⟨rfl, rfl, rfl⟩
  | _ => exact .inr rfl

theorem changesOnly_setDT_advance (s : State) (b : Byte) :
    ChangesOnly (fun c => c = .dt ∨ c = .pc) s (s.setDT b).advance := by
  intro c
  cases c with
  | dt => exact .inl (.inl rfl)
  | pc => exact .inl (.inr rfl)
  | faultStatus | environment => exact .inr ⟨rfl, rfl, rfl⟩
  | _ => exact .inr rfl

theorem changesOnly_setST_advance (s : State) (b : Byte) :
    ChangesOnly (fun c => c = .st ∨ c = .pc) s (s.setST b).advance := by
  intro c
  cases c with
  | st => exact .inl (.inl rfl)
  | pc => exact .inl (.inr rfl)
  | faultStatus | environment => exact .inr ⟨rfl, rfl, rfl⟩
  | _ => exact .inr rfl

/-- Reading a byte of a run just stored, and every other byte. -/
theorem changesOnly_writeBytes (s : State) (a : Nat) (bs : List Byte) :
    ChangesOnly (fun c => ∃ k, k < bs.length ∧ c = .cell (a + k)) s (s.setMem (writeBytes s.cfg s.mem a bs)) := by
  intro c
  cases c with
  | cell b =>
    by_cases h : a ≤ b ∧ b < a + bs.length
    · exact .inl ⟨b - a, by omega, by rw [Nat.add_sub_cancel' h.1]⟩
    · right
      simp only [SameAt, State.setMem_readByte, Memory.read_writeBytes, dif_neg h]
      rfl
  | faultStatus | environment => exact .inr ⟨rfl, rfl, rfl⟩
  | _ => exact .inr rfl

theorem changesOnly_sample (s : State) (keys : Keys) (rand : Byte) :
    ChangesOnly (fun c => c = .keys ∨ c = .rand) s (s.sample keys rand) := by
  intro c
  cases c with
  | keys => exact .inl (.inl rfl)
  | rand => exact .inl (.inr rfl)
  | faultStatus | environment => exact .inr ⟨rfl, rfl, rfl⟩
  | _ => exact .inr rfl

theorem changesOnly_consumeEvent (s : State) : ChangesOnly (· = .environment) s (consumeEvent s) := by
  obtain ⟨ins, acc, d, h⟩ := consumeEvent_eq s
  rw [h]
  intro c
  cases c with
  | environment => exact .inl rfl
  | faultStatus => exact .inr ⟨rfl, rfl, rfl⟩
  | _ => exact .inr rfl

/-! ### A tick -/

/-- The state after a tick that is not halted (60_exceptions.md R181). -/
def State.ticked (s : State) : State := { s with DT := countDown s.DT, ST := countDown s.ST }

theorem timerTick_halted {s : State} (h : s.halted = true) : timerTick s = .next s := if_pos h

theorem timerTick_running {s : State} (h : s.halted = false) : timerTick s = .next s.ticked := if_neg (by simp [h])

theorem changesOnly_ticked (s : State) : ChangesOnly (fun c => c = .dt ∨ c = .st) s s.ticked := by
  intro c
  cases c with
  | dt => exact .inl (.inl rfl)
  | st => exact .inl (.inr rfl)
  | faultStatus | environment => exact .inr ⟨rfl, rfl, rfl⟩
  | _ => exact .inr rfl

/-! ### The entry of a fault -/

/-- The state after the entry of a fault (60_exceptions.md R172). -/
def State.faulted (s : State) (c : FaultCause) : State :=
  { s with halted := true, fault := faultCode c, faultRecord := some c }

theorem raise_faulted (c : FaultCause) (s : State) : raise c s = .next (s.faulted c) := rfl

theorem raised_faulted (c : FaultCause) (s : State) : Raised c (faultCode c) s (s.faulted c) := by
  refine ⟨rfl, rfl, rfl, fun d => ?_⟩
  cases d with
  | faultStatus => exact .inl rfl
  | environment => exact .inr ⟨rfl, rfl, rfl⟩
  | _ => exact .inr rfl

end Sys2Proof.Machine
end

section
/-! What an instruction can do, said once: it takes the fault the table `instrFault` names for it (60_exceptions.md R170), or it
completes in the state `completed` gives. -/

namespace Sys2Proof.Machine

/-! ### Each check finds the fault of the table -/

theorem memRead_eq (s : State) (a n : Nat) :
    memRead s a n = (rangeFault a n).elim (.ok (readBytes s a n)) .error := by
  unfold rangeFault
  split
  · rw [memRead_error (by omega) (by omega), outOfRange_eq]; rfl
  · rw [memRead_ok (by omega)]; rfl

/-- The first glyph address of a range is the larger of the two lower ends, if the range and the font meet. -/
theorem firstFontAddr_eq (cfg : Config) : ∀ a n : Nat, firstFontAddr cfg a n =
    if max a cfg.fontBase < min (a + n) (cfg.fontBase + fontBytes) then some (max a cfg.fontBase) else none
  | a, 0 => (if_neg (by omega)).symm
  | a, n + 1 => by
    unfold firstFontAddr inFont
    by_cases h : cfg.fontBase ≤ a ∧ a < cfg.fontBase + fontBytes
    · rw [if_pos (by simpa using h), if_pos (by omega), Nat.max_eq_left h.1]
    · rw [if_neg (by simpa using h), firstFontAddr_eq cfg (a + 1) n]
      by_cases hlt : a < cfg.fontBase
      · rw [Nat.max_eq_right hlt, Nat.max_eq_right (by omega), show a + 1 + n = a + (n + 1) by omega]
      · rw [if_neg (by omega), if_neg (by omega)]

theorem fontFault_eq (cfg : Config) (a n : Nat) : fontFault cfg a n = (firstFontAddr cfg a n).map .fontWrite := by
  rw [firstFontAddr_eq, fontFault]
  split <;> rfl

theorem memWrite_eq (s : State) (a : Nat) {bs : List Byte} (h : 0 < bs.length) :
    memWrite s a bs = ((rangeFault a bs.length).or (fontFault s.cfg a bs.length)).elim
      (.ok (s.setMem (writeBytes s.cfg s.mem a bs))) .error := by
  rw [fontFault_eq]
  obtain ⟨hr, hf, hw⟩ | ⟨hr, hw⟩ | ⟨hr, f, hf, hw⟩ := memWrite_cases (s := s) (a := a) (bs := bs) rfl
  · rw [hw, hf, rangeFault, if_neg (by omega)]; rfl
  · rw [hw, rangeFault, if_pos ⟨h, hr⟩, outOfRange_eq]; rfl
  · rw [hw, hf, rangeFault, if_neg (by omega)]; rfl

theorem push_eq (s : State) (ret : Word) : push s ret =
    (if s.SP = 16 then some (FaultCause.stackOverflow s.PC) else none).elim
      (.ok { s with stack := s.stack.setIfInBounds s.SP.val ret, SP := Fin.ofNat 17 (s.SP.val + 1) }) .error := by
  by_cases h : s.SP = 16
  · rw [push_full h, if_pos h]; rfl
  · have hlt : s.SP.val < 16 := by
      have : s.SP.val ≠ 16 := fun h' => h (Fin.ext h')
      omega
    have hSP : Fin.ofNat 17 (s.SP.val + 1) = ⟨s.SP.val + 1, by omega⟩ := Fin.ext (Nat.mod_eq_of_lt (by omega))
    have hstack : s.stack.setIfInBounds s.SP.val ret = s.stack.set s.SP.val ret :=
      Vector.ext fun k hk => by rw [Vector.getElem_setIfInBounds, Vector.getElem_set]
    rw [push_ok hlt, if_neg h, hSP, hstack]; rfl

theorem pop_eq (s : State) : pop s =
    (if s.SP = 0 then some (FaultCause.stackUnderflow s.PC) else none).elim
      (.ok (s.stack[s.SP.val - 1], { s with SP := ⟨s.SP.val - 1, by omega⟩ })) .error := by
  by_cases h : s.SP = 0
  · rw [pop_empty h, if_pos h]; rfl
  · rw [pop_ok (Nat.pos_of_ne_zero fun h' => h (Fin.ext h')), if_neg h]; rfl

theorem keyOperand_eq (s : State) (x : Reg) : keyOperand s x =
    (if 15 < (s.v x).toNat then some (FaultCause.keyIndexOutOfRange (s.v x)) else none).elim
      (.ok (Fin.ofNat 16 (s.v x).toNat)) .error := by
  split
  · exact keyOperand_error (by omega)
  · rw [keyOperand_ok (by omega)]
    exact congrArg Except.ok (Fin.ext (Nat.mod_eq_of_lt (by omega)).symm)

theorem fontOperand_eq (s : State) (x : Reg) : fontOperand s x =
    (if 15 < (s.v x).toNat then some (FaultCause.fontIndexOutOfRange (s.v x)) else none).elim
      (.ok (Fin.ofNat 16 (s.v x).toNat)) .error := by
  split
  · exact fontOperand_error (by omega)
  · rw [fontOperand_ok (by omega)]
    exact congrArg Except.ok (Fin.ext (Nat.mod_eq_of_lt (by omega)).symm)

/-! ### The state an instruction completes in -/

/-- A call that finds a free entry (40_flow.md R86). -/
def State.called (s : State) (target : Word) : State :=
  { s with stack := s.stack.setIfInBounds s.SP.val (s.PC + 2), SP := Fin.ofNat 17 (s.SP.val + 1), PC := target }

/-- A return that finds an entry (R84). -/
def State.returned (s : State) : State :=
  { s with SP := ⟨s.SP.val - 1, by omega⟩, PC := s.stack[s.SP.val - 1] }

/-- A store of bytes through I (20_memory.md R47). -/
def State.stored (s : State) (bs : List Byte) : State := s.setMem (writeBytes s.cfg s.mem s.I.toNat bs)

/-- A load of registers through I (42_index_memory.md R125). -/
def State.loaded (s : State) (x : Reg) : State := { s with V := loadFrom s.V 0 (readBytes s s.I.toNat (x.val + 1)) }

/-- The draw of Dxyn from the display of `s` (43_display.md R142). -/
def drawOf (s : State) (x y : Reg) (n : BitVec 4) : Draw :=
  drawRows (s.v x).toNat (s.v y).toNat 0 (readBytes s s.I.toNat n.toNat) { disp := s.disp, collision := false }

/-- Fx0A with what the search for a pressed key found (44_keys_timers.md R152). -/
def State.keyRecorded (s : State) (x : Reg) : Option Nat → State
  | none => s
  | some k => (s.setV x (BitVec.ofNat 8 k)).advance

/-- The state an instruction leads to when its check finds no fault. -/
def completed (s : State) : Instr → State
  | .cls => (s.setDisp clearDisplay).advance
  | .ret => s.returned
  | .jp nnn => s.setPC (addrOf nnn)
  | .call nnn => s.called (addrOf nnn)
  | .seImm x kk => s.skipIf (s.v x == kk)
  | .sneImm x kk => s.skipIf (s.v x != kk)
  | .seReg x y => s.skipIf (s.v x == s.v y)
  | .ldImm x kk => (s.setV x kk).advance
  | .addImm x kk => (s.setV x (s.v x + kk)).advance
  | .ldReg x y => (s.setV x (s.v y)).advance
  | .orReg x y => (s.setV x (s.v x ||| s.v y)).advance
  | .andReg x y => (s.setV x (s.v x &&& s.v y)).advance
  | .xorReg x y => (s.setV x (s.v x ^^^ s.v y)).advance
  | .addReg x y => (writeResultThenFlag s x (s.v x + s.v y) (carryOut (s.v x) (s.v y))).advance
  | .sub x y => (writeFlagThenResult s x (s.v x - s.v y) (noBorrow (s.v x) (s.v y))).advance
  | .shr x _ => (writeFlagThenResult s x (s.v x >>> 1) (lowBit (s.v x))).advance
  | .subn x y => (writeFlagThenResult s x (s.v y - s.v x) (noBorrow (s.v y) (s.v x))).advance
  | .shl x _ => (writeFlagThenResult s x (s.v x <<< 1) (highBit (s.v x))).advance
  | .sneReg x y => s.skipIf (s.v x != s.v y)
  | .ldI nnn => (s.setI (addrOf nnn)).advance
  | .ldIV0 nnn => (s.setI ((s.v 0).setWidth 16 + addrOf nnn)).advance
  | .rnd x kk => (s.setV x (s.rand &&& kk)).advance
  | .drw x y n => ((s.setDisp (drawOf s x y n).disp).setV VF (flagByte (drawOf s x y n).collision)).advance
  | .skp x => s.skipIf (keyDown s (Fin.ofNat 16 (s.v x).toNat))
  | .sknp x => s.skipIf (!keyDown s (Fin.ofNat 16 (s.v x).toNat))
  | .ldVxDt x => (s.setV x s.DT).advance
  | .ldVxK x => s.keyRecorded x (lowestKey s)
  | .ldDtVx x => (s.setDT (s.v x)).advance
  | .ldStVx x => (s.setST (s.v x)).advance
  | .ldFVx x => (s.setI (fontTable s.cfg (Fin.ofNat 16 (s.v x).toNat))).advance
  | .ldBVx x => (s.stored (bcdBytes (s.v x))).advance
  | .stRegs x => (s.stored (regsThrough s x)).advance
  | .ldRegs x => (s.loaded x).advance

/-! ### A fault of the table, or completion -/

/-- The result of an instruction that completes in `t`, once its check has found the fault `f` or none. -/
def faultOr (s t : State) (f : Option FaultCause) : Result := f.elim (.next t) fun c => raise c s

/-- A checked operation whose check finds the fault `f` or goes on with `a`. -/
theorem orRaise_of_eq {α : Type} {s t : State} {r : Except FaultCause α} {a : α} {k : α → Result} {f : Option FaultCause}
    (hr : r = f.elim (.ok a) .error) (hk : k a = .next t) : orRaise s r k = faultOr s t f := by
  subst hr
  cases f with
  | none => exact hk
  | some c => rfl

theorem exec_eq (i : Instr) (s : State) : exec i s = faultOr s (completed s i) (instrFault s i) := by
  cases i with
  | ret => exact orRaise_of_eq (pop_eq s) rfl
  | call => exact orRaise_of_eq (push_eq s _) rfl
  | drw | ldRegs => exact orRaise_of_eq (memRead_eq s _ _) rfl
  | ldBVx x => exact orRaise_of_eq (memWrite_eq s s.I.toNat (bs := bcdBytes (s.v x)) (by simp [bcdBytes])) rfl
  | stRegs x =>
    have hlen := regsThrough_length s x
    have hw := memWrite_eq s s.I.toNat (bs := regsThrough s x) (by omega)
    rw [hlen] at hw
    exact orRaise_of_eq hw rfl
  | skp | sknp => exact orRaise_of_eq (keyOperand_eq s _) rfl
  | ldFVx => exact orRaise_of_eq (fontOperand_eq s _) rfl
  | ldVxK x =>
    show execLdVxK x s = .next (s.keyRecorded x (lowestKey s))
    unfold execLdVxK
    cases lowestKey s <;> rfl
  | _ => rfl

theorem exec_of_fault {i : Instr} {s : State} {c : FaultCause} (h : instrFault s i = some c) :
    exec i s = .next (s.faulted c) := by
  rw [exec_eq, h]; rfl

theorem exec_of_valid {i : Instr} {s : State} (h : instrFault s i = none) : exec i s = .next (completed s i) := by
  rw [exec_eq, h]; rfl

/-- What an instruction can do. -/
theorem exec_cases {i : Instr} {s t : State} (h : exec i s = .next t) :
    (∃ c, instrFault s i = some c ∧ t = s.faulted c) ∨ (instrFault s i = none ∧ t = completed s i) := by
  cases hf : instrFault s i with
  | none => rw [exec_of_valid hf] at h; cases h; exact .inr ⟨rfl, rfl⟩
  | some c => rw [exec_of_fault hf] at h; cases h; exact .inl ⟨c, rfl, rfl⟩

theorem exec_next (i : Instr) (s : State) : ∃ t, exec i s = .next t := by
  cases hf : instrFault s i with
  | none => exact ⟨_, exec_of_valid hf⟩
  | some c => exact ⟨_, exec_of_fault hf⟩

end Sys2Proof.Machine
end

section
/-! What a completed instruction can change, piece by piece: the tables of writers (10_state.md R12 to R18; 20_memory.md R48;
43_display.md R144). -/

namespace Sys2Proof.Machine

/-! ### The frame of each shape of completion -/

theorem changesOnly_writeResultThenFlag (s : State) (x : Reg) (b : Byte) (f : Bool) :
    ChangesOnly (fun c => c = .v x ∨ c = .v VF ∨ c = .pc) s (writeResultThenFlag s x b f).advance :=
  ((changesOnly_setV s x b).mono fun _ h => .inl h).trans ((changesOnly_setV_advance _ VF _).mono fun _ h => .inr h)

theorem changesOnly_writeFlagThenResult (s : State) (x : Reg) (b : Byte) (f : Bool) :
    ChangesOnly (fun c => c = .v x ∨ c = .v VF ∨ c = .pc) s (writeFlagThenResult s x b f).advance :=
  ((changesOnly_setV s VF _).mono fun _ h => .inr (.inl h)).trans
    ((changesOnly_setV_advance _ x b).mono fun _ h => h.imp_right .inr)

theorem changesOnly_draw (s : State) (d : Display) (b : Byte) :
    ChangesOnly (fun c => c = .pc ∨ c = .v VF ∨ ∃ r k, c = .pixel r k) s ((s.setDisp d).setV VF b).advance :=
  ((changesOnly_setV s VF b).mono fun _ h => .inr (.inl h)).trans
    ((changesOnly_setDisp_advance _ d).mono fun _ h => h.imp_right .inr)

theorem changesOnly_stored (s : State) (bs : List Byte) :
    ChangesOnly (fun c => c = .pc ∨ ∃ k, k < bs.length ∧ c = .cell (s.I.toNat + k)) s (s.stored bs).advance :=
  ((changesOnly_writeBytes s s.I.toNat bs).mono fun _ h => .inr h).trans ((changesOnly_setPC _ _).mono fun _ h => .inl h)

theorem loaded_v (s : State) (x r : Reg) :
    (s.loaded x).v r = if r ≤ x then s.readByte (s.I.toNat + r.val) else s.v r := by
  rw [show (s.loaded x).v r = _ from loadFrom_getElem (readBytes s s.I.toNat (x.val + 1)) s.V 0 r]
  simp only [readBytes_length, readBytes_getElem, Nat.zero_le, true_and, Nat.zero_add, Nat.sub_zero, Nat.lt_succ_iff]
  by_cases h : r ≤ x
  · exact (dif_pos h).trans (if_pos h).symm
  · exact (dif_neg h).trans (if_neg h).symm

theorem changesOnly_loaded (s : State) (x : Reg) :
    ChangesOnly (fun c => c = .pc ∨ ∃ r, r ≤ x ∧ c = .v r) s (s.loaded x).advance := by
  intro c
  cases c with
  | v r =>
    by_cases h : r ≤ x
    · exact .inl (.inr ⟨r, h, rfl⟩)
    · exact .inr ((loaded_v s x r).trans (if_neg h))
  | pc => exact .inl (.inl rfl)
  | faultStatus | environment => exact .inr ⟨rfl, rfl, rfl⟩
  | _ => exact .inr rfl

theorem changesOnly_called {s : State} (h : s.SP.val < 16) (target : Word) :
    ChangesOnly (fun c => c = .pc ∨ c = .sp ∨ c = .stackEntry ⟨s.SP.val, h⟩) s (s.called target) := by
  intro c
  cases c with
  | pc => exact .inl (.inl rfl)
  | sp => exact .inl (.inr (.inl rfl))
  | stackEntry k =>
    by_cases hk : s.SP.val = k.val
    · exact .inl (.inr (.inr (congrArg _ (Fin.ext hk.symm))))
    · exact .inr (Vector.getElem_setIfInBounds_ne _ hk)
  | faultStatus | environment => exact .inr ⟨rfl, rfl, rfl⟩
  | _ => exact .inr rfl

theorem changesOnly_returned (s : State) : ChangesOnly (fun c => c = .pc ∨ c = .sp) s s.returned := by
  intro c
  cases c with
  | pc => exact .inl (.inl rfl)
  | sp => exact .inl (.inr rfl)
  | faultStatus | environment => exact .inr ⟨rfl, rfl, rfl⟩
  | _ => exact .inr rfl

theorem changesOnly_keyRecorded (s : State) (x : Reg) (k : Option Nat) :
    ChangesOnly (fun c => c = .v x ∨ c = .pc) s (s.keyRecorded x k) := by
  cases k with
  | none => exact .refl _ s
  | some k => exact changesOnly_setV_advance s x _

/-! ### The table of writers -/

/-- The pieces an instruction may write. -/
def MayWrite (i : Instr) : Component → Prop
  | .v r => writesReg i r = true
  | .index => (∃ nnn, i = .ldI nnn) ∨ (∃ nnn, i = .ldIV0 nnn) ∨ ∃ x, i = .ldFVx x
  | .pc => True
  | .sp | .stackEntry _ => i = .ret ∨ ∃ nnn, i = .call nnn
  | .dt => ∃ x, i = .ldDtVx x
  | .st => ∃ x, i = .ldStVx x
  | .cell _ => (∃ x, i = .ldBVx x) ∨ ∃ x, i = .stRegs x
  | .pixel _ _ => i = .cls ∨ ∃ x y n, i = .drw x y n
  | .faultStatus | .keys | .rand | .config | .environment => False

theorem completed_changesOnly {i : Instr} {s : State} (hv : instrFault s i = none) :
    ChangesOnly (MayWrite i) s (completed s i) := by
  cases i with
  | cls => exact (changesOnly_setDisp_advance s _).mono (by rintro _ (rfl | ⟨r, c, rfl⟩) <;> simp [MayWrite])
  | drw x y n => exact (changesOnly_draw s _ _).mono (by rintro _ (rfl | rfl | ⟨r, c, rfl⟩) <;> simp [MayWrite, writesReg])
  | ret => exact (changesOnly_returned s).mono (by rintro _ (rfl | rfl) <;> simp [MayWrite])
  | call nnn =>
    have hSP : s.SP.val < 16 := by
      have h16 : s.SP ≠ 16 := fun h => by simp [instrFault, h] at hv
      have : s.SP.val ≠ 16 := fun h => h16 (Fin.ext h)
      omega
    exact (changesOnly_called hSP _).mono (by rintro _ (rfl | rfl | rfl) <;> simp [MayWrite])
  | jp | seImm | sneImm | seReg | sneReg | skp | sknp =>
    exact (changesOnly_setPC s _).mono (by rintro _ rfl; exact trivial)
  | ldImm | addImm | ldReg | orReg | andReg | xorReg | rnd | ldVxDt =>
    exact (changesOnly_setV_advance s _ _).mono (by rintro _ (rfl | rfl) <;> simp [MayWrite, writesReg])
  | ldVxK => exact (changesOnly_keyRecorded s _ _).mono (by rintro _ (rfl | rfl) <;> simp [MayWrite, writesReg])
  | addReg =>
    exact (changesOnly_writeResultThenFlag s _ _ _).mono (by rintro _ (rfl | rfl | rfl) <;> simp [MayWrite, writesReg])
  | sub | shr | subn | shl =>
    exact (changesOnly_writeFlagThenResult s _ _ _).mono (by rintro _ (rfl | rfl | rfl) <;> simp [MayWrite, writesReg])
  | ldI | ldIV0 | ldFVx => exact (changesOnly_setI_advance s _).mono (by rintro _ (rfl | rfl) <;> simp [MayWrite])
  | ldDtVx => exact (changesOnly_setDT_advance s _).mono (by rintro _ (rfl | rfl) <;> simp [MayWrite])
  | ldStVx => exact (changesOnly_setST_advance s _).mono (by rintro _ (rfl | rfl) <;> simp [MayWrite])
  | ldBVx | stRegs => exact (changesOnly_stored s _).mono (by rintro _ (rfl | ⟨k, -, rfl⟩) <;> simp [MayWrite])
  | ldRegs =>
    exact (changesOnly_loaded s _).mono (by
      rintro _ (rfl | ⟨r, hr, rfl⟩)
      · exact trivial
      · exact decide_eq_true hr)

/-- An instruction changes what its row of the table names, or the fault status. -/
theorem exec_changesOnly {i : Instr} {s t : State} (h : exec i s = .next t) :
    ChangesOnly (fun c => MayWrite i c ∨ c = .faultStatus) s t := by
  obtain ⟨c, -, rfl⟩ | ⟨hv, rfl⟩ := exec_cases h
  · exact (raised_faulted c s).2.2.2.mono fun _ h => .inr h
  · exact (completed_changesOnly hv).mono fun _ h => .inl h

/-- A piece the instruction may not write is as it was. -/
theorem sameAt_of_not_mayWrite {i : Instr} {s t : State} (h : exec i s = .next t) {c : Component} (hc : ¬MayWrite i c)
    (hf : c ≠ .faultStatus) : SameAt s t c :=
  (exec_changesOnly h c).resolve_left fun hw => hw.elim hc hf

/-- A piece that differs is one the instruction may write. -/
theorem mayWrite_of_changed {i : Instr} {s t : State} (h : exec i s = .next t) {c : Component} (hc : ¬SameAt s t c)
    (hf : c ≠ .faultStatus) : MayWrite i c :=
  Classical.byContradiction fun hw => hc (sameAt_of_not_mayWrite h hw hf)

/-- Settles O34: a register is one of the pieces of the frame. -/
theorem registersChangeOnlyAsTheTableSays : Obligations.RegistersChangeOnlyAsTheTableSays := fun _ _ _ r h hr =>
  mayWrite_of_changed h (c := .v r) hr nofun

/-- Settles O44: each clause is one piece of the frame; a stack that differs does so in an entry, a display in a pixel. -/
theorem everyPieceHasItsWriters : Obligations.EveryPieceHasItsWriters := by
  intro i s t h
  refine ⟨fun hI => mayWrite_of_changed h (c := .index) hI nofun, ?_,
    fun hDT => mayWrite_of_changed h (c := .dt) hDT nofun,
    fun hST => mayWrite_of_changed h (c := .st) hST nofun, fun hd => ?_, ?_, ?_⟩
  · rintro (hSP | hstack)
    · exact mayWrite_of_changed h (c := .sp) hSP nofun
    · refine Classical.byContradiction fun hno => hstack (Vector.ext fun k hk => ?_)
      exact sameAt_of_not_mayWrite h (c := .stackEntry ⟨k, hk⟩) hno nofun
  · refine Classical.byContradiction fun hno => hd (display_ext fun r c => ?_)
    exact sameAt_of_not_mayWrite h (c := .pixel r c) hno nofun
  · rintro ⟨a, ha⟩
    exact mayWrite_of_changed h (c := .cell a) ha nofun
  · exact sameAt_of_not_mayWrite h (c := .config) id nofun

end Sys2Proof.Machine
end

section
/-! The step, its events and the instruction cycle (40_flow.md R80 to R83; 60_exceptions.md R170 to R174, R182). -/

namespace Sys2Proof.Machine

/-! ### Fetch, decode, execute -/

theorem fetchDecodeExecute_of_fetch_error {s : State} {c : FaultCause} (h : fetch s = .error c) :
    fetchDecodeExecute s = .next (s.faulted c) := by
  rw [fetchDecodeExecute, h]; rfl

theorem fetchDecodeExecute_of_decode {s : State} {w : Word} {i : Instr} (hf : fetch s = .ok w) (hd : decodeWord w = some i) :
    fetchDecodeExecute s = exec i s := by
  rw [fetchDecodeExecute, hf, orRaise_ok, execWord, hd]

theorem fetchDecodeExecute_of_unmatched {s : State} {w : Word} (hf : fetch s = .ok w) (hd : decodeWord w = none) :
    fetchDecodeExecute s = execUnmatched w s := by
  rw [fetchDecodeExecute, hf, orRaise_ok, execWord, hd]

theorem completed_halted {i : Instr} {s : State} (h : instrFault s i = none) : (completed s i).halted = s.halted :=
  ((completed_changesOnly h .faultStatus).resolve_left id).1

/-- A cycle takes the fault of the table, or leads to a state that is halted only if this one is (60_exceptions.md R174). -/
theorem fetchDecodeExecute_cases (s : State) :
    (∃ c, cycleFault s = some c ∧ fetchDecodeExecute s = .next (s.faulted c)) ∨
      (cycleFault s = none ∧ ∃ t, fetchDecodeExecute s = .next t ∧ t.halted = s.halted) := by
  by_cases hPC : s.PC.toNat < 0x200 ∨ 0xFFE < s.PC.toNat
  · exact .inl ⟨_, if_pos hPC, fetchDecodeExecute_of_fetch_error (fetch_error hPC)⟩
  · unfold cycleFault
    rw [if_neg hPC]
    generalize hw : wordOfBytes (s.readByte s.PC.toNat) (s.readByte (s.PC.toNat + 1)) = w
    have hf : fetch s = .ok w := fetch_ok_iff.mpr ⟨by omega, by omega, hw.symm⟩
    cases hd : decodeWord w with
    | some i =>
      rw [fetchDecodeExecute_of_decode hf hd]
      cases hi : instrFault s i with
      | some c => exact .inl ⟨c, by simp [hd, hi], exec_of_fault hi⟩
      | none => exact .inr ⟨by simp [hd, hi], _, exec_of_valid hi, completed_halted hi⟩
    | none =>
      rw [fetchDecodeExecute_of_unmatched hf hd]
      cases hs : s.cfg.strictDecode with
      | true => exact .inl ⟨_, by simp [hd], execUnmatched_strict hs⟩
      | false => exact .inr ⟨by simp [hd], _, execUnmatched_permissive hs, rfl⟩

/-- Settles O10: the table and the cycle make the same checks in the same order. -/
theorem cycleFaultsExactlyByTheTable : Obligations.CycleFaultsExactlyByTheTable := by
  intro s hs
  obtain ⟨c, hc, ht⟩ | ⟨hnone, t, ht, hhalt⟩ := fetchDecodeExecute_cases s
  · exact ⟨fun d hd => by rw [ht, ← Option.some.inj (hc.symm.trans hd)]; rfl, fun hnone => by simp [hc] at hnone⟩
  · exact ⟨fun d hd => by simp [hnone] at hd, fun _ => ⟨t, ht, hhalt.trans hs⟩⟩

/-! ### The instruction cycle -/

theorem instructionCycle_halted {s : State} (h : s.halted = true) (keys : Keys) (rand : Byte) :
    instructionCycle keys rand s = .next s := if_pos h

theorem instructionCycle_running {s : State} (h : s.halted = false) (keys : Keys) (rand : Byte) :
    instructionCycle keys rand s = fetchDecodeExecute (s.sample keys rand) := if_neg (by simp [h])

theorem faultCode_range (c : FaultCause) : 1 ≤ (faultCode c).toNat ∧ (faultCode c).toNat ≤ 9 := by
  cases c <;> simp [faultCode]

/-- Settles O11: a cycle that ends halted took a fault of the table, and the entry of a fault changes only the fault status. -/
theorem faultingCycleChangesOnlyTheFaultStatus : Obligations.FaultingCycleChangesOnlyTheFaultStatus := by
  intro s t keys rand hs ht hhalt
  rw [instructionCycle_running hs] at ht
  obtain ⟨c, -, hc⟩ | ⟨-, u, hu, huhalt⟩ := fetchDecodeExecute_cases (s.sample keys rand)
  · cases hc.symm.trans ht
    exact ⟨c, raised_faulted c _, faultCode_range c⟩
  · cases hu.symm.trans ht
    simp [huhalt, hs] at hhalt

/-- Settles O7: the fetch is the first check, and it is made in the sampled state. -/
theorem fetchOutsideTheProgramFaults : Obligations.FetchOutsideTheProgramFaults := fun _ keys rand hs hPC =>
  ⟨_, (instructionCycle_running hs keys rand).trans (fetchDecodeExecute_of_fetch_error (fetch_error hPC)),
    raised_faulted _ _⟩

/-- Settles O8: with no row for the word, the mode alone decides. -/
theorem unmatchedWordIsNoOpOrStrictFault : Obligations.UnmatchedWordIsNoOpOrStrictFault := by
  intro s keys rand w hs hf hd
  have hcycle : instructionCycle keys rand s = execUnmatched w (s.sample keys rand) :=
    (instructionCycle_running hs keys rand).trans (fetchDecodeExecute_of_unmatched (by rwa [fetch_sample]) hd)
  refine ⟨fun hmode => ⟨_, ?_, rfl, changesOnly_setPC _ _⟩, fun hmode => ⟨_, ?_, raised_faulted _ _⟩⟩
  · rw [hcycle]; exact execUnmatched_permissive hmode
  · rw [hcycle]; exact execUnmatched_strict hmode

/-- Settles O58: the jump sets PC to the value it has. -/
theorem endOfRunIsStable : Obligations.EndOfRunIsStable := by
  rintro s keys rand ⟨hs, nnn, hf, hPC⟩
  have hjump : exec (.jp nnn) (s.sample keys rand) = .next (s.sample keys rand) := by
    show Host.Outcome.next ((s.sample keys rand).setPC (nnn.setWidth 16)) = _
    rw [← hPC]; rfl
  refine ⟨s.sample keys rand, ?_, ⟨hs, nnn, hf, hPC⟩, changesOnly_sample s keys rand⟩
  rw [instructionCycle_running hs, fetchDecodeExecute_of_decode (s := s.sample keys rand) hf (decodeWord_encode _),
    hjump]

/-! ### The step -/

theorem fetch_consumeEvent (s : State) : fetch (consumeEvent s) = fetch s := by simp [fetch]

/-- Settles O5: the head of the list is the next event, and taking it off leaves the rest. -/
theorem stepIsTheNextEventOfTheList : Obligations.StepIsTheNextEventOfTheList := by
  intro s e rest h
  rw [step_eq, nextEvent_cons h, consumeEvent_cons h]

theorem step_instrClk {s : State} {keys : Keys} {rand : Byte} (h : nextEvent s = .instrClk keys rand) :
    step s = instructionCycle keys rand (consumeEvent s) := by
  rw [step_eq, h]; rfl

theorem step_timerClk {s : State} (h : nextEvent s = .timerClk) : step s = timerTick (consumeEvent s) := by
  rw [step_eq, h]; rfl

/-- Settles O6: the fetch sees the same bytes after the event is taken off and the ports are sampled. -/
theorem stepRunsTheDecodedInstruction : Obligations.StepRunsTheDecodedInstruction := by
  intro s keys rand i he hs hlo hhi hd
  refine ⟨?_, changesOnly_consumeEvent s⟩
  have hf : fetch ((consumeEvent s).sample keys rand) =
      .ok (wordOfBytes (s.readByte s.PC.toNat) (s.readByte (s.PC.toNat + 1))) := by
    rw [fetch_sample, fetch_consumeEvent]
    exact fetch_ok_iff.mpr ⟨hlo, hhi, rfl⟩
  rw [step_instrClk he, instructionCycle_running (by simpa using hs), fetchDecodeExecute_of_decode hf hd]

/-- Settles O12: neither a cycle nor a tick does anything in a halted state. -/
theorem haltedMachineIsFrozenUntilReset : Obligations.HaltedMachineIsFrozenUntilReset := by
  intro s hs hno
  have hs' : (consumeEvent s).halted = true := by simpa using hs
  refine ⟨?_, changesOnly_consumeEvent s⟩
  cases he : nextEvent s with
  | reset rom => exact absurd he (hno rom)
  | instrClk keys rand => rw [step_instrClk he, instructionCycle_halted hs']
  | timerClk => rw [step_timerClk he, timerTick_halted hs']

theorem instructionCycle_next (keys : Keys) (rand : Byte) (s : State) : ∃ t, instructionCycle keys rand s = .next t := by
  cases hs : s.halted with
  | true => exact ⟨_, instructionCycle_halted hs keys rand⟩
  | false =>
    rw [instructionCycle_running hs]
    obtain ⟨c, -, h⟩ | ⟨-, t, h, -⟩ := fetchDecodeExecute_cases (s.sample keys rand)
    · exact ⟨_, h⟩
    · exact ⟨t, h⟩

theorem timerTick_next (s : State) : ∃ t, timerTick s = .next t := by
  cases hs : s.halted with
  | true => exact ⟨_, timerTick_halted hs⟩
  | false => exact ⟨_, timerTick_running hs⟩

theorem resetEvent_next (rom : List Byte) (s : State) : ∃ t, resetEvent rom s = .next t := by
  unfold resetEvent
  split
  · exact ⟨_, raise_faulted _ _⟩
  · exact ⟨_, rfl⟩

theorem fire_next (e : Event) (s : State) : ∃ t, fire e s = .next t := by
  cases e with
  | reset rom => exact resetEvent_next rom s
  | instrClk keys rand => exact instructionCycle_next keys rand s
  | timerClk => exact timerTick_next s

/-- Settles O9: a step is one event, and each of the three events has a next state. -/
theorem everyStepAnswersANextState : Obligations.EveryStepAnswersANextState := fun s =>
  fire_next (nextEvent s) (consumeEvent s)

end Sys2Proof.Machine
end

section
/-! The reset event (70_reset_and_hazards.md R200 to R202; 10_state.md R27). -/

namespace Sys2Proof.Machine

/-! ### What memory holds after a reset -/

/-- The glyph bytes are those of the parameter, five rows a glyph (20_memory.md R43). -/
theorem resetByte_glyph (cfg : Config) (d : Fin 16) (r : Fin 5) :
    resetByte cfg (cfg.fontBase + 5 * d.val + r.val) = cfg.fontGlyphs[d][r] := by
  have hd : (cfg.fontBase + 5 * d.val + r.val - cfg.fontBase) / 5 = d.val := by omega
  have hr : (cfg.fontBase + 5 * d.val + r.val - cfg.fontBase) % 5 = r.val := by omega
  unfold resetByte
  rw [dif_pos (by omega)]
  simp only [hd, hr]
  rfl

theorem inFont_iff (cfg : Config) (a : Nat) : inFont cfg a = true ↔ cfg.fontBase ≤ a ∧ a < cfg.fontBase + 80 := by
  simp only [inFont, Bool.and_eq_true, decide_eq_true_eq]
  exact Iff.rfl

theorem resetByte_of_not_inFont {cfg : Config} {a : Nat} (h : inFont cfg a = false) : resetByte cfg a = 0 := by
  rw [resetByte, dif_neg]
  rw [← inFont_iff, h]
  exact Bool.false_ne_true

theorem fontBase_le_of_wf {cfg : Config} (h : cfg.wf = true) : cfg.fontBase + 80 ≤ 0x200 := by
  simp only [Config.wf, Bool.and_eq_true, decide_eq_true_eq] at h
  exact h.2

/-! ### The state after a reset -/

/-- The fresh state with a ROM in memory (70_reset_and_hazards.md R200). -/
def State.withRom (s : State) (rom : List Byte) : State :=
  (freshState s).setMem (writeBytes s.cfg [] programBase rom)

theorem resetEvent_fits {s : State} {rom : List Byte} (h : rom.length ≤ 3584) : resetEvent rom s = .next (s.withRom rom) :=
  if_neg (Nat.not_lt.mpr h)

theorem resetEvent_tooLarge {s : State} {rom : List Byte} (h : 3584 < rom.length) :
    resetEvent rom s = .next ((s.withRom []).faulted (.romTooLarge rom.length)) :=
  if_pos h

theorem withRom_readByte (s : State) (rom : List Byte) (a : Nat) : (s.withRom rom).readByte a =
    if h : 0x200 ≤ a ∧ a < 0x200 + rom.length then rom[a - 0x200]'(by omega) else resetByte s.cfg a := by
  show Memory.read s.cfg (writeBytes s.cfg [] 0x200 rom) a = _
  rw [Memory.read_writeBytes]; rfl

/-- Settles O13: the registers are those of the reset state; a glyph address lies below the ROM; any other address outside
the ROM is not listed. -/
theorem resetBuildsAFreshMachine : Obligations.ResetBuildsAFreshMachine := by
  intro s rom hwf hrom
  have hfont := fontBase_le_of_wf hwf
  refine ⟨s.withRom rom, resetEvent_fits hrom, fun x => State.reset_v x, rfl, rfl, rfl, fun k => ?_, rfl, rfl,
    fun r c => pixel_clearDisplay r c, rfl, rfl, rfl, fun d r => ?_, fun k hk => ?_, fun a hnot ha => ?_⟩
  · exact Vector.getElem_replicate k.isLt
  · rw [withRom_readByte, dif_neg (by omega), resetByte_glyph]
  · rw [withRom_readByte, dif_pos (by omega)]
    simp only [Nat.add_sub_cancel_left]
  · rw [withRom_readByte, dif_neg (by omega), resetByte_of_not_inFont hnot]

/-- Settles O14: the fault is taken in the state a reset with no ROM leads to. -/
theorem tooLargeRomHaltsAtReset : Obligations.TooLargeRomHaltsAtReset := fun _ _ h =>
  ⟨_, _, resetEvent_tooLarge h, resetEvent_fits (Nat.zero_le _), raised_faulted _ _, rfl⟩

end Sys2Proof.Machine
end

section
/-! The program counter after an instruction (10_state.md R15; 40_flow.md R83, R91). -/

namespace Sys2Proof.Machine

theorem skipIf_PC_cases (s : State) (c : Bool) : (s.skipIf c).PC = s.PC + 4 ∨ (s.skipIf c).PC = s.PC + 2 := by
  cases c with
  | true => exact .inl rfl
  | false => exact .inr rfl

theorem lowestKey_none_iff (s : State) : lowestKey s = none ↔ ∀ k, k < 16 → s.keys.getLsbD k = false := by
  rw [lowestKey, lowestKeyFrom_none]
  exact ⟨fun h k hk => h k (Nat.zero_le k) (by omega), fun h k _ hk => h k (by omega)⟩

theorem lowestKey_none_iff_keys_eq_zero (s : State) : lowestKey s = none ↔ s.keys = 0 := by
  rw [lowestKey_none_iff]
  refine ⟨fun h => BitVec.eq_of_getLsbD_eq fun k hk => ?_, fun h k _ => ?_⟩
  · rw [h k hk]; exact BitVec.getLsbD_zero.symm
  · rw [h]; exact BitVec.getLsbD_zero

theorem keyRecorded_PC (s : State) (x : Reg) :
    (s.keyRecorded x (lowestKey s)).PC = if s.keys = 0 then s.PC else s.PC + 2 := by
  have hiff := lowestKey_none_iff_keys_eq_zero s
  cases hk : lowestKey s with
  | none => rw [if_pos (hiff.mp hk)]; rfl
  | some k => rw [if_neg (fun h => by simp [hiff.mpr h] at hk)]; rfl

/-- Settles O25: a fault leaves PC; a completed instruction sets it as its row says. -/
theorem pcAfterEveryInstruction : Obligations.PCAfterEveryInstruction := by
  intro i s t hs h
  obtain ⟨c, -, rfl⟩ | ⟨hv, rfl⟩ := exec_cases h
  · rw [if_pos (show (s.faulted c).halted = true from rfl)]; rfl
  · rw [if_neg (by simp [completed_halted hv, hs])]
    cases i with
    | ret =>
      have hSP : s.SP ≠ 0 := fun h0 => by simp [instrFault, h0] at hv
      have : s.SP.val ≠ 0 := fun h0 => hSP (Fin.ext h0)
      exact ⟨⟨s.SP.val - 1, by omega⟩, by simp only; omega, rfl⟩
    | seImm | sneImm | seReg | sneReg | skp | sknp => exact skipIf_PC_cases s _
    | ldVxK x => exact keyRecorded_PC s x
    | _ => exact rfl

/-- A completed instruction leaves PC, advances or skips, jumps, or returns. -/
theorem completed_PC_cases (s : State) (i : Instr) :
    (∃ d : Fin 5, (completed s i).PC = s.PC + BitVec.ofNat 16 d) ∨ (∃ nnn, (completed s i).PC = addrOf nnn) ∨
      ∃ k : Fin 16, (completed s i).PC = s.stack[k] := by
  cases i with
  | ret => exact .inr (.inr ⟨⟨s.SP.val - 1, by omega⟩, rfl⟩)
  | jp nnn | call nnn => exact .inr (.inl ⟨nnn, rfl⟩)
  | seImm | sneImm | seReg | sneReg | skp | sknp =>
    exact .inl ((skipIf_PC_cases s _).elim (fun h => ⟨4, h⟩) (fun h => ⟨2, h⟩))
  | ldVxK x =>
    left
    show ∃ d : Fin 5, (s.keyRecorded x (lowestKey s)).PC = _
    rw [keyRecorded_PC]
    split
    · exact ⟨0, by simp⟩
    · exact ⟨2, rfl⟩
  | _ => exact .inl ⟨2, rfl⟩

end Sys2Proof.Machine
end

section
/-! The invariant is kept by every step (10_state.md R14, R16, R25, R28; 20_memory.md R47; 60_exceptions.md R170, R185). -/

namespace Sys2Proof.Machine

/-! ### Stores -/

/-- A store finds no fault exactly when it is allowed (20_memory.md R47). -/
theorem storeFault_none_iff {s : State} {n : Nat} (hn : 0 < n) :
    (rangeFault s.I.toNat n).or (fontFault s.cfg s.I.toNat n) = none ↔ storeAllowed s n := by
  rw [Option.or_eq_none_iff, fontFault_eq, Option.map_eq_none_iff, firstFontAddr_none, storeAllowed]
  refine and_congr ?_ ⟨fun h k hk => h _ (by omega) (by omega), fun h b hb hlt => ?_⟩
  · simp only [rangeFault, ite_eq_right_iff, reduceCtorEq, imp_false]
    omega
  · rw [← Nat.add_sub_cancel' hb]
    exact h _ (by omega)

/-- A completed instruction stores nothing, or a run of bytes where a store is allowed. -/
theorem completed_mem {s : State} {i : Instr} (hv : instrFault s i = none) :
    (completed s i).mem = s.mem ∨
      ∃ bs, storeAllowed s bs.length ∧ (completed s i).mem = writeBytes s.cfg s.mem s.I.toNat bs := by
  cases i with
  | ldBVx x => exact .inr ⟨bcdBytes (s.v x), (storeFault_none_iff (Nat.succ_pos 2)).mp hv, rfl⟩
  | stRegs x =>
    refine .inr ⟨regsThrough s x, ?_, rfl⟩
    rw [regsThrough_length]
    exact (storeFault_none_iff (Nat.succ_pos _)).mp hv
  | ldVxK x =>
    left
    show (s.keyRecorded x (lowestKey s)).mem = s.mem
    cases lowestKey s <;> rfl
  | _ => exact .inl rfl

theorem readByte_of_stored {s t : State} {bs : List Byte} (hs : storeAllowed s bs.length) (hc : t.cfg = s.cfg)
    (hm : t.mem = writeBytes s.cfg s.mem s.I.toNat bs) {a : Nat} (ha : inFont s.cfg a = true) :
    t.readByte a = s.readByte a := by
  rw [State.readByte, hc, hm, Memory.read_writeBytes, dif_neg]
  · rfl
  · rintro ⟨h1, h2⟩
    have := hs.2 (a - s.I.toNat) (by omega)
    rw [Nat.add_sub_cancel' h1, ha] at this
    cases this

/-! ### Bounds of the registers -/

theorem toNat_addrOf_lt (nnn : BitVec 12) : (addrOf nnn).toNat < 0x1000 := by
  rw [toNat_addrOf]; exact nnn.isLt

theorem toNat_ldIV0 (b : Byte) (nnn : BitVec 12) : (b.setWidth 16 + addrOf nnn).toNat = b.toNat + nnn.toNat := by
  have hb : (b.setWidth 16).toNat = b.toNat := BitVec.toNat_setWidth_of_le (by decide)
  have := b.isLt
  have := nnn.isLt
  rw [BitVec.toNat_add, hb, toNat_addrOf, Nat.mod_eq_of_lt (by omega)]

theorem toNat_fontTable {cfg : Config} (h : cfg.wf = true) (d : Fin 16) :
    (fontTable cfg d).toNat = cfg.fontBase + 5 * d.val := by
  have := fontBase_le_of_wf h
  rw [fontTable, BitVec.toNat_ofNat, Nat.mod_eq_of_lt (by omega)]

theorem toNat_add_ofNat_le {w : Word} {d b : Nat} (h : w.toNat + d ≤ b) : (w + BitVec.ofNat 16 d).toNat ≤ b := by
  rw [BitVec.toNat_add, BitVec.toNat_ofNat]
  exact Nat.le_trans (Nat.mod_le _ _) (Nat.le_trans (Nat.add_le_add_left (Nat.mod_le _ _) _) h)

variable {s : State} {i : Instr}

theorem completed_PC_le (h : Invariant s) (hPC : s.PC.toNat ≤ 0xFFE) : (completed s i).PC.toNat ≤ 0x1002 := by
  obtain ⟨d, hd⟩ | ⟨nnn, hj⟩ | ⟨k, hk⟩ := completed_PC_cases s i
  · rw [hd]; exact toNat_add_ofNat_le (by omega)
  · rw [hj]; have := toNat_addrOf_lt nnn; omega
  · rw [hk]; have := h.stack k; omega

theorem completed_I_le (h : Invariant s) (hv : instrFault s i = none) : (completed s i).I.toNat ≤ 0x10FE := by
  obtain hw | hI := completed_changesOnly hv .index
  · obtain ⟨nnn, rfl⟩ | ⟨nnn, rfl⟩ | ⟨x, rfl⟩ := hw
    · have := toNat_addrOf_lt nnn
      exact (show (addrOf nnn).toNat ≤ 0x10FE by omega)
    · have := (s.v 0).isLt
      have := nnn.isLt
      show ((s.v 0).setWidth 16 + addrOf nnn).toNat ≤ 0x10FE
      rw [toNat_ldIV0]; omega
    · have := fontBase_le_of_wf h.config
      show (fontTable s.cfg (Fin.ofNat 16 (s.v x).toNat)).toNat ≤ 0x10FE
      rw [toNat_fontTable h.config]; omega
  · rw [hI]; exact h.index

theorem completed_stack_le (h : Invariant s) (hPC : s.PC.toNat ≤ 0xFFE) (hv : instrFault s i = none) (k : Fin 16) :
    (completed s i).stack[k].toNat ≤ 0x1000 := by
  obtain hw | hk := completed_changesOnly hv (.stackEntry k)
  · obtain rfl | ⟨nnn, rfl⟩ := hw
    · exact h.stack k
    · show ((s.stack.setIfInBounds s.SP.val (s.PC + 2))[k.val]).toNat ≤ 0x1000
      rw [Vector.getElem_setIfInBounds]
      split
      · exact toNat_add_ofNat_le (d := 2) (by omega)
      · exact h.stack k
  · rw [hk]; exact h.stack k

/-! ### Each event keeps the invariant -/

theorem inv_completed (h : Invariant s) (hPC : s.PC.toNat ≤ 0xFFE) (hv : instrFault s i = none) :
    Invariant (completed s i) := by
  have hframe := completed_changesOnly hv
  have hc : (completed s i).cfg = s.cfg := (hframe .config).resolve_left id
  obtain ⟨hhalted, hfault, hrecord⟩ := (hframe .faultStatus).resolve_left id
  obtain ⟨-, hacc, -⟩ := (hframe .environment).resolve_left id
  refine ⟨hc ▸ h.config, ?_, ?_, completed_PC_le h hPC, completed_I_le h hv, completed_stack_le h hPC hv, ?_, ?_⟩
  · obtain hm | ⟨bs, hbs, hm⟩ := completed_mem hv
    · rw [hc, hm]; exact h.memory
    · rw [hc, hm]; exact Memory.wf_writeBytes s.cfg bs h.memory hbs.1
  · intro a ha
    rw [hc] at ha ⊢
    rw [← h.glyphs a ha]
    obtain hm | ⟨bs, hbs, hm⟩ := completed_mem hv
    · rw [State.readByte, hc, hm]; rfl
    · exact readByte_of_stored hbs hc hm ha
  · rw [hhalted, hfault, hrecord]; exact h.status
  · rw [hacc, hc]; exact h.schedule

theorem inv_faulted (h : Invariant s) (c : FaultCause) : Invariant (s.faulted c) :=
  { h with status := ⟨rfl, rfl⟩ }

theorem inv_exec (h : Invariant s) (hPC : s.PC.toNat ≤ 0xFFE) {t : State} (ht : exec i s = .next t) : Invariant t := by
  obtain ⟨c, -, rfl⟩ | ⟨hv, rfl⟩ := exec_cases ht
  · exact inv_faulted h c
  · exact inv_completed h hPC hv

theorem inv_sample (h : Invariant s) (keys : Keys) (rand : Byte) : Invariant (s.sample keys rand) := { h with }

theorem inv_instructionCycle (h : Invariant s) {keys : Keys} {rand : Byte} {t : State}
    (ht : instructionCycle keys rand s = .next t) : Invariant t := by
  have hsample := inv_sample h keys rand
  obtain ⟨-, rfl⟩ | ⟨-, ⟨c, -, hc⟩ | ⟨w, i, hf, -, hi⟩ | ⟨w, -, -, -, hc⟩ | ⟨w, hf, -, -, rfl⟩⟩ :=
    instructionCycle_cases ht
  · exact h
  · cases hc; exact inv_faulted hsample c
  · exact inv_exec hsample (fetch_ok_iff.mp hf).2.1 hi
  · cases hc; exact inv_faulted hsample _
  · have := (fetch_ok_iff.mp hf).2.1
    exact { hsample with pc := toNat_add_ofNat_le (d := 2) (by show s.PC.toNat + 2 ≤ _; omega) }

theorem inv_timerTick (h : Invariant s) {t : State} (ht : timerTick s = .next t) : Invariant t := by
  obtain ⟨-, rfl⟩ | ⟨-, rfl⟩ := timerTick_cases ht
  · exact h
  · exact { h with }

/-- Settles O15: every bound is met with room, memory lists nothing, and no fault is on record. -/
theorem resetStateMeetsInv : Obligations.ResetStateMeetsInv where
  config := by decide
  memory := reset_mem_wf
  glyphs := fun a _ => State.reset_readByte a
  pc := by decide
  index := by decide
  stack := by decide
  status := ⟨rfl, rfl⟩
  schedule := by decide

theorem inv_withRom (h : Invariant s) {rom : List Byte} (hrom : rom.length ≤ 3584) : Invariant (s.withRom rom) where
  config := h.config
  memory := Memory.wf_writeBytes s.cfg rom rfl (by simp only [programBase, memSize]; omega)
  glyphs := fun a ha => by
    have := (inFont_iff s.cfg a).mp ha
    have := fontBase_le_of_wf h.config
    rw [withRom_readByte, dif_neg (by omega)]; rfl
  pc := resetStateMeetsInv.pc
  index := resetStateMeetsInv.index
  stack := fun k => resetStateMeetsInv.stack k
  status := ⟨rfl, rfl⟩
  schedule := Nat.add_pos_right _ (by decide)

theorem inv_resetEvent (h : Invariant s) {rom : List Byte} {t : State} (ht : resetEvent rom s = .next t) : Invariant t := by
  by_cases hrom : rom.length ≤ 3584
  · rw [resetEvent_fits hrom] at ht
    cases ht; exact inv_withRom h hrom
  · rw [resetEvent_tooLarge (by omega)] at ht
    cases ht; exact inv_faulted (inv_withRom h (Nat.zero_le _)) _

/-- The accumulator gains 60 only below INSTR_HZ, and loses INSTR_HZ otherwise (60_exceptions.md R185). -/
theorem consumeEvent_tickAcc_lt (h : s.tickAcc < s.cfg.instrHz + 60) : (consumeEvent s).tickAcc < s.cfg.instrHz + 60 := by
  unfold consumeEvent timerHz
  split
  · exact h
  · split
    · exact (show s.tickAcc - s.cfg.instrHz < _ by omega)
    · exact (show s.tickAcc + 60 < _ by omega)

theorem inv_consumeEvent (h : Invariant s) : Invariant (consumeEvent s) where
  config := by simpa using h.config
  memory := by simpa using h.memory
  glyphs := by simpa using h.glyphs
  pc := by simpa using h.pc
  index := by simpa using h.index
  stack := by simpa using h.stack
  status := by simpa using h.status
  schedule := by simpa [timerHz] using consumeEvent_tickAcc_lt h.schedule

/-- Settles O16: taking the event off keeps the invariant, and so does each of the three events. -/
theorem everyStepKeepsInv : Obligations.EveryStepKeepsInv := by
  intro s t h ht
  have hs := inv_consumeEvent h
  obtain ⟨rom, -, hr⟩ | ⟨-, htick⟩ | ⟨keys, rand, -, hc⟩ := step_cases ht
  · exact inv_resetEvent hs hr
  · exact inv_timerTick hs htick
  · exact inv_instructionCycle hs hc

end Sys2Proof.Machine
end

section
/-! Control transfer: jump, call, return and the skips on two registers (40_flow.md R84 to R90). -/

namespace Sys2Proof.Machine

/-- An instruction whose check finds a fault takes it: the fault status and nothing else changes. -/
theorem exec_raised {i : Instr} {s : State} {c : FaultCause} (h : instrFault s i = some c) :
    ∃ t, exec i s = .next t ∧ Raised c (faultCode c) s t :=
  ⟨_, exec_of_fault h, raised_faulted c s⟩

/-- Settles O17: the target is checked by the next fetch only. -/
theorem jumpSetsPCOnly : Obligations.JumpSetsPCOnly := by
  refine fun s nnn => ⟨s.setPC (addrOf nnn), rfl, toNat_addrOf nnn, changesOnly_setPC s _, fun h => ?_⟩
  rw [← toNat_addrOf nnn] at h
  exact fetch_error h

theorem exec_call {s : State} (h : s.SP.val < 16) (nnn : BitVec 12) : exec (.call nnn) s = .next (s.called (addrOf nnn)) :=
  exec_of_valid (if_neg fun h16 => by rw [h16] at h; exact absurd h (by decide))

theorem called_SP {s : State} (h : s.SP.val < 16) (target : Word) : (s.called target).SP.val = s.SP.val + 1 :=
  Nat.mod_eq_of_lt (by omega)

theorem called_stack {s : State} (h : s.SP.val < 16) (target : Word) : (s.called target).stack[s.SP.val] = s.PC + 2 :=
  Vector.getElem_setIfInBounds_self _

theorem exec_ret {s : State} (h : 0 < s.SP.val) : exec .ret s = .next s.returned :=
  exec_of_valid (if_neg fun h0 => by rw [h0] at h; exact absurd h (by decide))

/-- Settles O18: the entry at SP is the one the frame names. -/
theorem callPushesTheReturnAddress : Obligations.CallPushesTheReturnAddress := fun _ nnn h =>
  ⟨_, exec_call h nnn, called_stack h _, called_SP h _, toNat_addrOf nnn, changesOnly_called h _⟩

/-- Settles O19: the table's fault, with code 1. -/
theorem seventeenthCallOverflows : Obligations.SeventeenthCallOverflows := fun _ _ h => exec_raised (if_pos h)

/-- Settles O20: the popped entry keeps its value. -/
theorem returnPopsTheTopEntry : Obligations.ReturnPopsTheTopEntry := fun s h =>
  ⟨_, exec_ret h, rfl, rfl, changesOnly_returned s⟩

/-- Settles O21: the table's fault, with code 2. -/
theorem returnOnEmptyStackUnderflows : Obligations.ReturnOnEmptyStackUnderflows := fun _ h => exec_raised (if_pos h)

/-- Settles O22: the return reads the entry the call wrote, at the depth the call left. -/
theorem returnResumesAfterTheCall : Obligations.ReturnResumesAfterTheCall := by
  intro s t u nnn h ht hSP hstack
  rw [exec_call h] at ht
  cases ht
  have hu : u.SP.val = s.SP.val + 1 := by rw [hSP, called_SP h]
  refine ⟨_, exec_ret (by omega), ?_, Fin.ext (by show u.SP.val - 1 = s.SP.val; omega)⟩
  show u.stack[u.SP.val - 1] = s.PC + 2
  simp only [hstack, hu, Nat.add_sub_cancel, called_stack h]

/-! ### The skips on two registers -/

theorem decodeWord_encXYN_5 (x y : Reg) (n : BitVec 4) :
    decodeWord (encXYN 0x5 x y n) = if n = 0 then some (.seReg x y) else none := by
  simp [decodeWord, decodeN0]

theorem decodeWord_encXYN_9 (x y : Reg) (n : BitVec 4) :
    decodeWord (encXYN 0x9 x y n) = if n = 0 then some (.sneReg x y) else none := by
  simp [decodeWord, decodeN0]

/-- Settles O24: as the skips on an immediate, on the equality of Vx and Vy or on its opposite. -/
theorem skipsOnRegisters : Obligations.SkipsOnRegisters := fun s x y =>
  ⟨decodeWord_encXYN_5 x y 0, decodeWord_encXYN_9 x y 0,
    fun n hn => ⟨(decodeWord_encXYN_5 x y n).trans (if_neg hn), (decodeWord_encXYN_9 x y n).trans (if_neg hn)⟩,
    ⟨_, rfl, skipIf_beq_PC s _ _, changesOnly_skipIf s _⟩, ⟨_, rfl, skipIf_bne_PC s _ _, changesOnly_skipIf s _⟩⟩

end Sys2Proof.Machine
end

section
/-! Arithmetic, logic, shifts and the random byte (41_alu.md R100, R104 to R112). -/

namespace Sys2Proof.Machine

/-- Settles O29: each writes one byte, computed bit by bit. -/
theorem logicIsBitwiseWithoutFlag : Obligations.LogicIsBitwiseWithoutFlag := by
  refine fun s x y => ⟨⟨_, rfl, rfl, changesOnly_setV_advance s x _, fun k => ?_⟩,
    ⟨_, rfl, rfl, changesOnly_setV_advance s x _, fun k => ?_⟩, ⟨_, rfl, rfl, changesOnly_setV_advance s x _, fun k => ?_⟩⟩
  · rw [setV_advance_v_same, BitVec.getLsbD_or]
  · rw [setV_advance_v_same, BitVec.getLsbD_and]
  · rw [setV_advance_v_same, BitVec.getLsbD_xor]

/-- Settles O33: one byte, the bitwise AND of the sampled byte and kk. -/
theorem randomByteIsMasked : Obligations.RandomByteIsMasked := by
  refine fun s x kk => ⟨_, rfl, fun k => ?_, rfl, changesOnly_setV_advance s x (s.rand &&& kk)⟩
  rw [setV_advance_v_same, BitVec.getLsbD_and]

/-! ### The two orders of writing a result and its flag (R100) -/

theorem flagByte_toNat (c : Bool) : (flagByte c).toNat = if c then 1 else 0 := by cases c <;> rfl

section
variable (s : State) (x : Reg) (b : Byte) (c : Bool)

theorem writeResultThenFlag_flag : (writeResultThenFlag s x b c).advance.v VF = flagByte c := by simp

theorem writeResultThenFlag_result (h : x ≠ VF) : (writeResultThenFlag s x b c).advance.v x = b := by simp [h.symm]

theorem writeFlagThenResult_result : (writeFlagThenResult s x b c).advance.v x = b := by simp

theorem writeFlagThenResult_flag (h : x ≠ VF) : (writeFlagThenResult s x b c).advance.v VF = flagByte c := by simp [h]

end

/-- Settles O30: the flag is written last, so the carry stands for every x. -/
theorem addSetsSumAndCarry : Obligations.AddSetsSumAndCarry := by
  refine fun s x y => ⟨_, rfl, fun hx => ?_, ?_, rfl, changesOnly_writeResultThenFlag s x _ _⟩
  · rw [writeResultThenFlag_result s x _ _ hx, BitVec.toNat_add]
  · rw [writeResultThenFlag_flag, flagByte_toNat, carryOut]
    simp only [decide_eq_true_eq]

theorem toNat_sub_byte (a b : Byte) : (a - b).toNat = (a.toNat + 256 - b.toNat) % 256 := by
  have := b.isLt
  rw [BitVec.toNat_sub]
  congr 1
  omega

theorem toNat_flagByte_noBorrow (a b : Byte) : (flagByte (noBorrow a b)).toNat = if a.toNat > b.toNat then 1 else 0 := by
  rw [flagByte_toNat, noBorrow]
  simp only [decide_eq_true_eq]

/-- Settles O31: the result is written last, so the difference stands for every x. -/
theorem subtractSetsDifferenceAndNoBorrow : Obligations.SubtractSetsDifferenceAndNoBorrow := by
  refine fun s x y => ⟨⟨_, rfl, ?_, fun hx => ?_, rfl, changesOnly_writeFlagThenResult s x _ _⟩,
    ⟨_, rfl, ?_, fun hx => ?_, rfl, changesOnly_writeFlagThenResult s x _ _⟩⟩
  · rw [writeFlagThenResult_result, toNat_sub_byte]
  · rw [writeFlagThenResult_flag s x _ _ hx, toNat_flagByte_noBorrow]
  · rw [writeFlagThenResult_result, toNat_sub_byte]
  · rw [writeFlagThenResult_flag s x _ _ hx, toNat_flagByte_noBorrow]

theorem toNat_flagByte_lowBit (a : Byte) : (flagByte (lowBit a)).toNat = a.toNat % 2 := by
  rw [flagByte_toNat, lowBit, BitVec.getLsbD, Nat.testBit_zero]
  simp only [decide_eq_true_eq]
  split <;> omega

theorem toNat_flagByte_highBit (a : Byte) : (flagByte (highBit a)).toNat = a.toNat / 128 := by
  have := a.isLt
  rw [flagByte_toNat, highBit, BitVec.getLsbD, Nat.testBit_eq_decide_div_mod_eq]
  simp only [decide_eq_true_eq]
  split <;> omega

/-- Settles O32: neither shift reads Vy; the result is written last. -/
theorem shiftsMoveVxAndKeepTheLostBit : Obligations.ShiftsMoveVxAndKeepTheLostBit := by
  refine fun s x y => ⟨⟨_, rfl, ?_, fun hx => ?_, rfl, changesOnly_writeFlagThenResult s x _ _⟩,
    ⟨_, rfl, ?_, fun hx => ?_, rfl, changesOnly_writeFlagThenResult s x _ _⟩⟩
  · rw [writeFlagThenResult_result, BitVec.toNat_ushiftRight]; rfl
  · rw [writeFlagThenResult_flag s x _ _ hx, toNat_flagByte_lowBit]
  · rw [writeFlagThenResult_result, BitVec.toNat_shiftLeft, Nat.shiftLeft_eq, Nat.mul_comm]
  · rw [writeFlagThenResult_flag s x _ _ hx, toNat_flagByte_highBit]

end Sys2Proof.Machine
end

section
/-! Index register and memory (42_index_memory.md R121 to R125; 20_memory.md R45 to R47, R54). -/

namespace Sys2Proof.Machine

/-- Settles O36: an 8-bit and a 12-bit number add up within 16 bits. -/
theorem loadIndexWithV0DoesNotJump : Obligations.LoadIndexWithV0DoesNotJump := fun s nnn =>
  ⟨_, rfl, toNat_ldIV0 (s.v 0) nnn, rfl, changesOnly_setI_advance s _⟩

/-- Settles O37: with well-formed parameters a glyph address fits 16 bits. -/
theorem fontLookupGivesTheGlyphAddress : Obligations.FontLookupGivesTheGlyphAddress := by
  refine fun s x => ⟨fun hwf hx => ⟨_, exec_of_valid (if_neg (by omega)), ?_, rfl, changesOnly_setI_advance s _⟩,
    fun hx => exec_raised (if_pos hx)⟩
  show (fontTable s.cfg (Fin.ofNat 16 (s.v x).toNat)).toNat = _
  rw [toNat_fontTable hwf, Fin.val_ofNat, Nat.mod_eq_of_lt (by omega)]

/-! ### Stores -/

theorem exec_ldBVx {s : State} {x : Reg} (h : storeAllowed s 3) :
    exec (.ldBVx x) s = .next (s.stored (bcdBytes (s.v x))).advance :=
  exec_of_valid ((storeFault_none_iff (Nat.succ_pos 2)).mpr h)

theorem exec_stRegs {s : State} {x : Reg} (h : storeAllowed s (x.val + 1)) :
    exec (.stRegs x) s = .next (s.stored (regsThrough s x)).advance :=
  exec_of_valid ((storeFault_none_iff (Nat.succ_pos _)).mpr h)

theorem stored_readByte (s : State) (bs : List Byte) {k : Nat} (h : k < bs.length) :
    (s.stored bs).readByte (s.I.toNat + k) = bs[k] := by
  rw [State.stored, State.setMem_readByte, Memory.read_writeBytes, dif_pos (by omega)]
  simp only [Nat.add_sub_cancel_left]

/-- The three digits of a byte (42_index_memory.md R123). -/
theorem bcdBytes_toNat (v : Byte) : ∃ h t u : Byte, bcdBytes v = [h, t, u] ∧
    100 * h.toNat + 10 * t.toNat + u.toNat = v.toNat ∧ h.toNat ≤ 2 ∧ t.toNat ≤ 9 ∧ u.toNat ≤ 9 := by
  have := v.isLt
  refine ⟨_, _, _, rfl, ?_⟩
  simp only [BitVec.toNat_ofNat]
  omega

/-- Settles O38: the bytes stored are the three digits. -/
theorem bcdStoresThreeDigits : Obligations.BcdStoresThreeDigits := by
  intro s x hs
  obtain ⟨h, t, u, hbcd, hsum, hh, ht, hu⟩ := bcdBytes_toNat (s.v x)
  have hread (k : Nat) (hk : k < 3) :
      (s.stored (bcdBytes (s.v x))).advance.readByte (s.I.toNat + k) = [h, t, u][k] := by
    rw [State.advance_readByte, hbcd, stored_readByte]
  have hread0 := hread 0 (by decide)
  rw [Nat.add_zero] at hread0
  refine ⟨_, exec_ldBVx hs, rfl, ?_⟩
  rw [hread0, hread 1 (by decide), hread 2 (by decide)]
  exact ⟨hsum, hh, ht, hu, changesOnly_stored s (bcdBytes (s.v x))⟩

theorem stRegs_readByte (s : State) {x r : Reg} (h : r ≤ x) :
    (s.stored (regsThrough s x)).advance.readByte (s.I.toNat + r.val) = s.v r := by
  rw [State.advance_readByte, stored_readByte s _ (by rw [regsThrough_length]; exact Nat.lt_succ_of_le h),
    regsThrough_getElem]

/-- Settles O39: the bytes stored are the registers, and the run is x + 1 bytes long. -/
theorem storeRegistersCopiesV0ToVx : Obligations.StoreRegistersCopiesV0ToVx := by
  refine fun s x hs => ⟨_, exec_stRegs hs, rfl, fun r hr => stRegs_readByte s hr, (changesOnly_stored s _).mono ?_⟩
  rintro c (rfl | ⟨k, hk, rfl⟩)
  · exact .inl rfl
  · rw [regsThrough_length] at hk
    exact .inr ⟨k, Nat.le_of_lt_succ hk, rfl⟩

/-! ### Loads -/

theorem rangeFault_none {a n : Nat} (h : n = 0 ∨ a + n - 1 ≤ 0xFFF) : rangeFault a n = none :=
  if_neg (by omega)

theorem exec_ldRegs {s : State} {x : Reg} (h : s.I.toNat + x.val ≤ 0xFFF) :
    exec (.ldRegs x) s = .next (s.loaded x).advance :=
  exec_of_valid (rangeFault_none (.inr h))

theorem loaded_v_of_le {s : State} {x r : Reg} (h : r ≤ x) :
    (s.loaded x).advance.v r = s.readByte (s.I.toNat + r.val) :=
  (loaded_v s x r).trans (if_pos h)

/-- Settles O40: the registers loaded are those the frame names. -/
theorem loadRegistersCopiesToV0ToVx : Obligations.LoadRegistersCopiesToV0ToVx := fun s x hI =>
  ⟨_, exec_ldRegs hI, rfl, fun _ hr => loaded_v_of_le hr, changesOnly_loaded s x⟩

/-- Settles O42: the load reads the bytes the store wrote. -/
theorem storedRegistersLoadBack : Obligations.StoredRegistersLoadBack := by
  intro s t u x hs ht hmem hcfg hI
  rw [exec_stRegs hs] at ht
  cases ht
  refine ⟨_, exec_ldRegs (by rw [hI]; have := hs.1; omega), fun r hr => ?_⟩
  rw [loaded_v_of_le hr, hI, ← stRegs_readByte s hr, State.readByte, hmem, hcfg]
  rfl

/-- Settles O43: the fetch reads the two bytes the store wrote, the lower register in the high byte. -/
theorem storedBytesAreFetched : Obligations.StoredBytesAreFetched := by
  intro s x k h hs hk hlo hhi
  refine ⟨_, exec_stRegs hs, fetch_ok_iff.mpr ?_⟩
  have hPC : (BitVec.ofNat 16 (s.I.toNat + k.val)).toNat = s.I.toNat + k.val := by
    rw [BitVec.toNat_ofNat, Nat.mod_eq_of_lt (by omega)]
  rw [State.setPC_PC, hPC, State.setPC_readByte, State.setPC_readByte]
  refine ⟨hlo, hhi, ?_⟩
  rw [stRegs_readByte s (show k ≤ x from Nat.le_of_succ_le hk), Nat.add_assoc,
    stRegs_readByte s (r := ⟨k.val + 1, h⟩) hk]

/-! ### Accesses that fault -/

theorem rangeFault_some {a n last : Nat} (hn : 0 < n) (hlast : a + n - 1 = last) (h : 0xFFF < last) :
    rangeFault a n = some (.memOutOfRange last (max a 0x1000)) := by
  rw [rangeFault, if_pos (by omega), hlast]
  have : (if a ≤ 0xFFF then 0x1000 else a) = max a 0x1000 := by split <;> omega
  rw [this]

/-- The first glyph address at or above `a` that a run of `n` bytes reaches. -/
theorem fontFault_some {cfg : Config} {a n f : Nat} (haf : a ≤ f) (hfn : f < a + n) (hf : inFont cfg f = true)
    (hfirst : ∀ b, a ≤ b → b < f → inFont cfg b = false) : fontFault cfg a n = some (.fontWrite f) := by
  obtain ⟨hlo, hhi⟩ := (inFont_iff cfg f).mp hf
  have hmax : max a cfg.fontBase = f := by
    refine Nat.le_antisymm (by omega) (Nat.not_lt.mp fun hlt => ?_)
    have := (inFont_iff cfg (max a cfg.fontBase)).mpr (by omega)
    rw [hfirst _ (by omega) hlt] at this
    cases this
  rw [fontFault, hmax, if_pos (by show f < min (a + n) (cfg.fontBase + 80); omega)]

/-- Settles O41: the range is checked before the glyph bytes, and a fault changes only the fault status. -/
theorem memoryAccessFaults : Obligations.MemoryAccessFaults := by
  refine fun s x y n => ⟨fun h => exec_raised ?_, fun h => ⟨exec_raised ?_, exec_raised ?_⟩, fun hn h => exec_raised ?_,
    fun f hle hf hfirst => ⟨fun hr hin => exec_raised ?_, fun hr hin => exec_raised ?_⟩⟩
  · rw [instrFault, rangeFault_some (by omega) rfl h]; rfl
  · rw [instrFault, rangeFault_some (by omega) rfl h]; rfl
  · exact rangeFault_some (by omega) rfl h
  · exact rangeFault_some hn rfl h
  · rw [instrFault, rangeFault_none (by omega), fontFault_some hle (by omega) hf hfirst]; rfl
  · rw [instrFault, rangeFault_none (by omega), fontFault_some hle (by omega) hf hfirst]; rfl

end Sys2Proof.Machine
end

section
/-! Keys and timers (44_keys_timers.md R150 to R155; 60_exceptions.md R181, R182, R188). -/

namespace Sys2Proof.Machine

/-! ### The key skips -/

theorem val_keyNumber {n : Nat} (h : n ≤ 15) : (Fin.ofNat 16 n).val = n := Nat.mod_eq_of_lt (by omega)

theorem exec_skp {s : State} {x : Reg} (h : (s.v x).toNat ≤ 15) :
    exec (.skp x) s = .next (s.skipIf (s.keys.getLsbD (s.v x).toNat)) := by
  have hvalid : instrFault s (.skp x) = none := if_neg (by omega)
  rw [exec_of_valid hvalid, completed, keyDown, val_keyNumber h]

theorem exec_sknp {s : State} {x : Reg} (h : (s.v x).toNat ≤ 15) :
    exec (.sknp x) s = .next (s.skipIf (!s.keys.getLsbD (s.v x).toNat)) := by
  have hvalid : instrFault s (.sknp x) = none := if_neg (by omega)
  rw [exec_of_valid hvalid, completed, keyDown, val_keyNumber h]

theorem skipIf_not_PC (s : State) (c : Bool) : (s.skipIf (!c)).PC = if c then s.PC + 2 else s.PC + 4 := by
  cases c <;> rfl

/-- Settles O48: a key number is checked, then its level decides the skip. -/
theorem keySkipsTestTheSampledLevel : Obligations.KeySkipsTestTheSampledLevel := fun s _ =>
  ⟨fun h => ⟨⟨_, exec_skp h, rfl, changesOnly_skipIf s _⟩, ⟨_, exec_sknp h, skipIf_not_PC s _, changesOnly_skipIf s _⟩⟩,
    fun h => ⟨exec_raised (if_pos h), exec_raised (if_pos h)⟩⟩

/-! ### The key wait -/

theorem lowestKey_some {s : State} {k : Nat} (hk : k < 16) (hdown : s.keys.getLsbD k = true)
    (hup : ∀ j, j < k → s.keys.getLsbD j = false) : lowestKey s = some k := by
  cases hl : lowestKey s with
  | none => rw [(lowestKey_none_iff s).mp hl k hk] at hdown; cases hdown
  | some j =>
    obtain ⟨-, -, hj, hmin⟩ := lowestKeyFrom_some hl
    obtain hlt | heq | hgt := Nat.lt_trichotomy j k
    · rw [hup j hlt] at hj; cases hj
    · rw [heq]
    · rw [hmin k (Nat.zero_le k) hgt] at hdown; cases hdown

theorem exec_ldVxK_some {s : State} {k : Nat} (h : lowestKey s = some k) (x : Reg) :
    exec (.ldVxK x) s = .next (s.setV x (BitVec.ofNat 8 k)).advance := by
  rw [exec_of_valid rfl, completed, h]; rfl

theorem exec_ldVxK_none {s : State} (h : lowestKey s = none) (x : Reg) : exec (.ldVxK x) s = .next s := by
  rw [exec_of_valid rfl, completed, h]; rfl

/-- Settles O49: the search finds the smallest key, or none exactly when none is down. -/
theorem keyWaitRecordsTheSmallestKey : Obligations.KeyWaitRecordsTheSmallestKey := by
  refine fun s x => ⟨fun k hk hdown hup => ?_, fun hnone => exec_ldVxK_none ((lowestKey_none_iff s).mpr hnone) x⟩
  refine ⟨_, exec_ldVxK_some (lowestKey_some hk hdown hup) x, ?_, rfl, changesOnly_setV_advance s x _⟩
  rw [setV_advance_v_same, BitVec.toNat_ofNat, Nat.mod_eq_of_lt (by omega)]

/-! ### Setting a timer, and the tick -/

theorem portSoundOn_iff (s : State) : portSoundOn s = true ↔ s.ST.toNat ≠ 0 := by
  rw [portSoundOn, bne_iff_ne, ne_eq, ← BitVec.toNat_inj]; rfl

/-- Settles O52: each sets its own timer, and sound_on is a view of ST. -/
theorem setTimers : Obligations.SetTimers := fun s x =>
  ⟨⟨_, rfl, rfl, rfl, changesOnly_setDT_advance s (s.v x)⟩,
    ⟨_, rfl, rfl, portSoundOn_iff _, rfl, changesOnly_setST_advance s (s.v x)⟩⟩

/-- Settles O53: the head of the list is the tick, which counts both timers down unless halted. -/
theorem tickCountsBothTimersDown : Obligations.TickCountsBothTimersDown := fun s =>
  ⟨fun rest h => stepIsTheNextEventOfTheList s .timerClk rest h, timerTick_halted,
    fun hs => ⟨_, timerTick_running hs, countDown_toNat s.DT, countDown_toNat s.ST, changesOnly_ticked s⟩⟩

/-! ### Runs over the environment's list -/

/-- The state with the head of the environment's list taken off. -/
def State.withInputs (s : State) (rest : List Event) : State := { s with inputs := rest }

theorem changesOnly_withInputs (s : State) (rest : List Event) : ChangesOnly (· = .environment) s (s.withInputs rest) := by
  intro c
  cases c with
  | environment => exact .inl rfl
  | faultStatus => exact .inr ⟨rfl, rfl, rfl⟩
  | _ => exact .inr rfl

theorem step_tick {s : State} {rest : List Event} (hs : s.halted = false) (h : s.inputs = .timerClk :: rest) :
    step s = .next (s.withInputs rest).ticked := by
  rw [stepIsTheNextEventOfTheList s _ _ h]
  exact timerTick_running hs

theorem changesOnly_withInputs_ticked (s : State) (rest : List Event) :
    ChangesOnly (fun c => c = .dt ∨ c = .st ∨ c = .environment) s (s.withInputs rest).ticked :=
  ((changesOnly_withInputs s rest).mono fun _ h => .inr (.inr h)).trans
    ((changesOnly_ticked _).mono fun _ h => h.imp_right .inl)

theorem countDown_toNat_sub (b : Byte) (k : Nat) : (countDown b).toNat - k = b.toNat - (k + 1) := by
  rw [countDown_toNat]; omega

/-- Settles O54, by induction on the number of ticks. -/
theorem timersCountEveryTick : Obligations.TimersCountEveryTick := by
  intro k
  induction k with
  | zero => exact fun rest s _ h => ⟨s, rfl, h, rfl, rfl, .refl _ s⟩
  | succ k ih =>
    intro rest s hs h
    have hstep := step_tick hs (rest := List.replicate k .timerClk ++ rest) (by rw [h]; rfl)
    obtain ⟨t, hrun, hrest, hDT, hST, hframe⟩ := ih rest (s.withInputs (List.replicate k .timerClk ++ rest)).ticked hs rfl
    refine ⟨t, (run_succ hstep).trans hrun, hrest, ?_, ?_, (changesOnly_withInputs_ticked s _).trans hframe⟩
    · exact hDT.trans (countDown_toNat_sub s.DT k)
    · exact hST.trans (countDown_toNat_sub s.ST k)

/-- A cycle with no key down at Fx0A only takes the event off and samples the ports (44_keys_timers.md R152). -/
theorem step_keyWait {s : State} {w : Word} {x : Reg} {rand : Byte} {rest : List Event} (hs : s.halted = false)
    (hf : fetch s = .ok w) (hd : decodeWord w = some (.ldVxK x)) (h : s.inputs = .instrClk 0 rand :: rest) :
    step s = .next ((s.withInputs rest).sample 0 rand) := by
  rw [stepIsTheNextEventOfTheList s _ _ h]
  show instructionCycle 0 rand (s.withInputs rest) = _
  rw [instructionCycle_running (s := s.withInputs rest) hs,
    fetchDecodeExecute_of_decode (s := (s.withInputs rest).sample 0 rand) hf hd]
  exact exec_ldVxK_none ((lowestKey_none_iff_keys_eq_zero _).mpr rfl) x

/-- Settles O50, by induction on the list: a cycle leaves everything, a tick counts the timers, and the fetch sees the same
word after either. -/
theorem keyWaitHoldsWhileTheTimersRun : Obligations.KeyWaitHoldsWhileTheTimersRun := by
  intro es
  induction es with
  | nil => exact fun rest s _ _ _ _ _ _ h => ⟨s, rfl, h, rfl, rfl, .refl _ s⟩
  | cons e es ih =>
    intro rest s w x hes hs hf hd h
    have hes' : ∀ e ∈ es, e = .timerClk ∨ ∃ rand, e = .instrClk 0 rand := fun e he => hes e (List.mem_cons_of_mem _ he)
    obtain rfl | ⟨rand, rfl⟩ := hes e List.mem_cons_self
    · obtain ⟨t, hrun, hrest, hDT, hST, hframe⟩ := ih rest (s.withInputs (es ++ rest)).ticked w x hes' hs hf hd rfl
      have hhead := (changesOnly_withInputs_ticked s (es ++ rest)).mono
        (Q := fun c => c = .dt ∨ c = .st ∨ c = .keys ∨ c = .rand ∨ c = .environment)
        (by rintro c (rfl | rfl | rfl) <;> simp)
      refine ⟨t, (run_succ (step_tick hs h)).trans hrun, hrest, ?_, ?_, hhead.trans hframe⟩
      · rw [List.count_cons_self]; exact hDT.trans (countDown_toNat_sub s.DT _)
      · rw [List.count_cons_self]; exact hST.trans (countDown_toNat_sub s.ST _)
    · obtain ⟨t, hrun, hrest, hDT, hST, hframe⟩ := ih rest ((s.withInputs (es ++ rest)).sample 0 rand) w x hes' hs hf hd rfl
      have hhead : ChangesOnly (fun c => c = .dt ∨ c = .st ∨ c = .keys ∨ c = .rand ∨ c = .environment) s
          ((s.withInputs (es ++ rest)).sample 0 rand) :=
        ((changesOnly_withInputs s (es ++ rest)).mono (by rintro c rfl; simp)).trans
          ((changesOnly_sample _ 0 rand).mono (by rintro c (rfl | rfl) <;> simp))
      have hcount : (Event.instrClk 0 rand :: es).count .timerClk = es.count .timerClk := List.count_cons_of_ne (by simp)
      rw [hcount]
      exact ⟨t, (run_succ (step_keyWait hs hf hd h)).trans hrun, hrest, hDT, hST, hhead.trans hframe⟩

end Sys2Proof.Machine
end

section
/-! Which instructions look at the timers and at the sampled ports (60_exceptions.md R182, R187; 41_alu.md R112). -/

namespace Sys2Proof.Machine

/-- The state with the timers and the sampled ports replaced, each by a function of its old value. -/
def State.mapSide (s : State) (dt st : Byte → Byte) (keys : Keys → Keys) (rand : Byte → Byte) : State :=
  { s with DT := dt s.DT, ST := st s.ST, keys := keys s.keys, rand := rand s.rand }

theorem readBytes_congr {s t : State} (h : ∀ a, t.readByte a = s.readByte a) : ∀ a n, readBytes t a n = readBytes s a n
  | _, 0 => rfl
  | a, n + 1 => by rw [readBytes, readBytes, h a, readBytes_congr h (a + 1) n]

variable {dt st : Byte → Byte} {keys : Keys → Keys} {rand : Byte → Byte}

theorem readBytes_mapSide (s : State) (a n : Nat) : readBytes (s.mapSide dt st keys rand) a n = readBytes s a n :=
  readBytes_congr (s := s) (t := s.mapSide dt st keys rand) (fun _ => rfl) a n

theorem instrFault_mapSide (s : State) (i : Instr) : instrFault (s.mapSide dt st keys rand) i = instrFault s i := by
  cases i <;> rfl

/-- Each piece that is replaced at all is one the instruction neither reads nor sets. -/
structure BlindTo (i : Instr) (dt st : Byte → Byte) (keys : Keys → Keys) (rand : Byte → Byte) : Prop where
  timers : (dt = id ∧ st = id) ∨ ∀ x, i ≠ .ldVxDt x ∧ i ≠ .ldDtVx x ∧ i ≠ .ldStVx x
  keys : keys = id ∨ ∀ x, i ≠ .skp x ∧ i ≠ .sknp x ∧ i ≠ .ldVxK x
  rand : rand = id ∨ ∀ x kk, i ≠ .rnd x kk

theorem completed_mapSide (s : State) {i : Instr} (h : BlindTo i dt st keys rand) :
    completed (s.mapSide dt st keys rand) i = (completed s i).mapSide dt st keys rand := by
  obtain ⟨hT, hK, hR⟩ := h
  cases i with
  | ldVxDt x => obtain ⟨rfl, rfl⟩ := hT.resolve_right fun h => (h x).1 rfl; rfl
  | ldDtVx x => obtain ⟨rfl, rfl⟩ := hT.resolve_right fun h => (h x).2.1 rfl; rfl
  | ldStVx x => obtain ⟨rfl, rfl⟩ := hT.resolve_right fun h => (h x).2.2 rfl; rfl
  | skp x => obtain rfl := hK.resolve_right fun h => (h x).1 rfl; rfl
  | sknp x => obtain rfl := hK.resolve_right fun h => (h x).2.1 rfl; rfl
  | ldVxK x =>
    obtain rfl := hK.resolve_right fun h => (h x).2.2 rfl
    show (s.mapSide dt st id rand).keyRecorded x (lowestKey s) = (s.keyRecorded x (lowestKey s)).mapSide dt st id rand
    cases lowestKey s <;> rfl
  | rnd x kk => obtain rfl := hR.resolve_right fun h => h x kk rfl; rfl
  | drw x y n =>
    have hdraw : drawOf (s.mapSide dt st keys rand) x y n = drawOf s x y n := by
      rw [drawOf, readBytes_mapSide]; rfl
    rw [completed, hdraw]; rfl
  | ldRegs x =>
    rw [completed, State.loaded, readBytes_mapSide]; rfl
  | _ => rfl

/-- Such an instruction answers alike: it takes the same fault, or completes alike. -/
theorem exec_mapSide {s t : State} {i : Instr} (hblind : BlindTo i dt st keys rand)
    (h : exec i s = .next t) : exec i (s.mapSide dt st keys rand) = .next (t.mapSide dt st keys rand) := by
  have hfault := instrFault_mapSide (dt := dt) (st := st) (keys := keys) (rand := rand) s i
  obtain ⟨c, hc, rfl⟩ | ⟨hv, rfl⟩ := exec_cases h
  · exact exec_of_fault (hfault.trans hc)
  · rw [exec_of_valid (hfault.trans hv), completed_mapSide s hblind]

/-- Settles O57: replacing one port, with the timers and the other port as they are. -/
theorem portsAreSeenOnlyByTheirInstructions : Obligations.PortsAreSeenOnlyByTheirInstructions := fun _ _ _ keys rand h =>
  ⟨fun hK => exec_mapSide (dt := id) (st := id) (keys := fun _ => keys) (rand := id) ⟨.inl ⟨rfl, rfl⟩, .inr hK, .inl rfl⟩ h,
    fun hR => exec_mapSide (dt := id) (st := id) (keys := id) (rand := fun _ => rand) ⟨.inl ⟨rfl, rfl⟩, .inl rfl, .inr hR⟩ h⟩

/-- Settles O55: a tick replaces the timers, with the ports as they are. -/
theorem ticksCommuteWithOtherInstructions : Obligations.TicksCommuteWithOtherInstructions := by
  intro i s t ticked hT hs h ht hticked
  rw [timerTick_running hs] at hticked
  cases hticked
  have hblind : BlindTo i countDown countDown id id := ⟨.inr hT, .inl rfl, .inl rfl⟩
  exact ⟨t.ticked, exec_mapSide hblind h, timerTick_running ht⟩

end Sys2Proof.Machine
end

section
/-! The sprite draw (43_display.md R142 to R144): what a draw XORs onto the display, and when it collides. -/

namespace Sys2Proof.Machine

/-! ### Sets of cells XORed onto a draw -/

/-- `e` is `d` with the cells of `cov` flipped, and has recorded a collision exactly when `d` had, or some flipped cell was
1. -/
structure Flips (d e : Draw) (cov : Fin 32 → Fin 64 → Bool) : Prop where
  pixel_eq : ∀ r c, pixel e.disp r c = (pixel d.disp r c != cov r c)
  collision_iff : e.collision = true ↔ d.collision = true ∨ ∃ r c, pixel d.disp r c = true ∧ cov r c = true

theorem Flips.congr {d e : Draw} {cov cov' : Fin 32 → Fin 64 → Bool} (h : Flips d e cov) (hc : ∀ r c, cov r c = cov' r c) :
    Flips d e cov' := by
  rwa [← funext fun r => funext (hc r)]

theorem Flips.refl (d : Draw) : Flips d d fun _ _ => false :=
  ⟨by simp, by simp⟩

theorem flips_drawBit (d : Draw) (r : Fin 32) (c : Fin 64) (bit : Bool) :
    Flips d (drawBit d r c bit) fun r' c' => decide (r = r' ∧ c = c') && bit := by
  refine ⟨fun r' c' => ?_, ?_⟩
  · rw [drawBit_pixel]
    by_cases h : r = r' ∧ c = c'
    · obtain ⟨rfl, rfl⟩ := h; simp
    · simp [h]
  · simp only [drawBit_collision, Bool.or_eq_true, Bool.and_eq_true, decide_eq_true_eq]
    refine or_congr_right ⟨fun h => ⟨r, c, h.1, ⟨rfl, rfl⟩, h.2⟩, ?_⟩
    rintro ⟨r', c', hp, ⟨rfl, rfl⟩, hb⟩
    exact ⟨hp, hb⟩

/-- Two draws in turn, on disjoint cells, are one draw on both sets. -/
theorem Flips.trans {d e f : Draw} {p q : Fin 32 → Fin 64 → Bool} (hde : Flips d e p) (hef : Flips e f q)
    (hdisj : ∀ r c, p r c = true → q r c = false) : Flips d f fun r c => p r c || q r c := by
  refine ⟨fun r c => ?_, ?_⟩
  · rw [hef.pixel_eq, hde.pixel_eq]
    cases hp : p r c with
    | false => simp
    | true => simp [hdisj r c hp]
  · have hsame (r c) (hq : q r c = true) : pixel e.disp r c = pixel d.disp r c := by
      have hp : p r c = false := Bool.eq_false_iff.mpr fun hp => by simp [hdisj r c hp] at hq
      rw [hde.pixel_eq, hp]; simp
    rw [hef.collision_iff, hde.collision_iff, or_assoc]
    refine or_congr_right ⟨?_, ?_⟩
    · rintro (⟨r, c, hd, hp⟩ | ⟨r, c, he, hq⟩)
      · exact ⟨r, c, hd, by simp [hp]⟩
      · exact ⟨r, c, hsame r c hq ▸ he, by simp [hq]⟩
    · rintro ⟨r, c, hd, hpq⟩
      obtain hp | hq := Bool.or_eq_true_iff.mp hpq
      · exact .inl ⟨r, c, hd, hp⟩
      · exact .inr ⟨r, c, (hsame r c hq).trans hd, hq⟩

/-! ### The cells of one row, and of all rows -/

/-- How many columns a cell lies right of the coordinate `x0`, with wrap-around. -/
def colFrom (x0 : Nat) (c : Fin 64) : Nat := (c.val + 64 - x0 % 64) % 64

/-- How many rows a cell lies below the coordinate `y0`, with wrap-around. -/
def rowFrom (y0 : Nat) (r : Fin 32) : Nat := (r.val + 32 - y0 % 32) % 32

theorem wrapCol_eq_iff (x0 : Nat) {k : Nat} (hk : k < 64) (c : Fin 64) : wrapCol (x0 + k) = c ↔ colFrom x0 c = k := by
  simp only [wrapCol, colFrom, Fin.ext_iff]
  omega

theorem wrapRow_eq_iff (y0 : Nat) {k : Nat} (hk : k < 32) (r : Fin 32) : wrapRow (y0 + k) = r ↔ rowFrom y0 r = k := by
  simp only [wrapRow, rowFrom, Fin.ext_iff]
  omega

/-- The first `n` columns of a sprite row flip the cells under their 1 bits. -/
theorem flips_columns (x0 : Nat) (r : Fin 32) (b : Byte) (d : Draw) : ∀ n, n ≤ 8 →
    Flips d ((List.range n).foldl (fun d k => drawBit d r (wrapCol (x0 + k)) (b.getLsbD (7 - k))) d)
      fun r' c => decide (r = r' ∧ colFrom x0 c < n) && b.getLsbD (7 - colFrom x0 c) := by
  intro n
  induction n with
  | zero => exact fun _ => (Flips.refl d).congr (by simp)
  | succ n ih =>
    intro hn
    rw [List.range_succ, List.foldl_append]
    refine ((ih (by omega)).trans (flips_drawBit _ r (wrapCol (x0 + n)) (b.getLsbD (7 - n))) ?_).congr ?_
    · intro r' c h
      simp only [Bool.and_eq_true, decide_eq_true_eq] at h
      simp only [wrapCol_eq_iff x0 (show n < 64 by omega)]
      have : colFrom x0 c ≠ n := by omega
      simp [this]
    · intro r' c
      simp only [wrapCol_eq_iff x0 (show n < 64 by omega)]
      obtain hlt | heq | hgt := Nat.lt_trichotomy (colFrom x0 c) n
      · simp [hlt, Nat.lt_succ_of_lt hlt, Nat.ne_of_lt hlt]
      · simp [heq]
      · simp [show ¬ colFrom x0 c < n by omega, show ¬ colFrom x0 c < n + 1 by omega, show colFrom x0 c ≠ n by omega]

theorem flips_drawRow (x0 : Nat) (r : Fin 32) (b : Byte) (d : Draw) :
    Flips d (drawRow x0 r b d) fun r' c => decide (r = r' ∧ colFrom x0 c < 8) && b.getLsbD (7 - colFrom x0 c) :=
  flips_columns x0 r b d 8 (Nat.le_refl 8)

/-- A cell under a 1 bit of the sprite `bs` whose first row is number `row`. -/
def covers (x0 y0 row : Nat) (bs : List Byte) (r : Fin 32) (c : Fin 64) : Bool :=
  decide (row ≤ rowFrom y0 r) && decide (colFrom x0 c < 8) && (bs.getD (rowFrom y0 r - row) 0).getLsbD (7 - colFrom x0 c)

theorem flips_drawRows (x0 y0 : Nat) : ∀ (bs : List Byte) (row : Nat) (d : Draw), row + bs.length ≤ 32 →
    Flips d (drawRows x0 y0 row bs d) (covers x0 y0 row bs) := by
  intro bs
  induction bs with
  | nil => exact fun row d _ => (Flips.refl d).congr (by simp [covers])
  | cons b bs ih =>
    intro row d hlen
    rw [List.length_cons] at hlen
    refine ((flips_drawRow x0 (wrapRow (y0 + row)) b d).trans (ih (row + 1) _ (by omega)) ?_).congr ?_
    · intro r c h
      simp only [wrapRow_eq_iff y0 (show row < 32 by omega), Bool.and_eq_true, decide_eq_true_eq] at h
      simp [covers, h.1.1, show ¬ row + 1 ≤ row by omega]
    · intro r c
      simp only [wrapRow_eq_iff y0 (show row < 32 by omega), covers]
      obtain hlt | heq | hgt := Nat.lt_trichotomy (rowFrom y0 r) row
      · simp [show ¬ row ≤ rowFrom y0 r by omega, show ¬ row + 1 ≤ rowFrom y0 r by omega, Nat.ne_of_lt hlt]
      · simp [heq, show ¬ row + 1 ≤ row by omega]
      · obtain ⟨k, hk⟩ : ∃ k, rowFrom y0 r = row + 1 + k := ⟨rowFrom y0 r - (row + 1), by omega⟩
        simp [hk, show row + 1 + k - row = k + 1 by omega, show row ≤ row + 1 + k by omega, show row + 1 + k ≠ row by omega]

/-! ### Dxyn -/

/-- The cells the rows read cover are those of the spec's table (R140, R142). -/
theorem covers_readBytes (s : State) (x y : Reg) (n : BitVec 4) (r : Fin 32) (c : Fin 64) :
    covers (s.v x).toNat (s.v y).toNat 0 (readBytes s s.I.toNat n.toNat) r c = spriteCovers s x y n r c := by
  show _ = (decide (rowFrom (s.v y).toNat r < n.toNat) && decide (colFrom (s.v x).toNat c < 8) &&
    (s.readByte (s.I.toNat + rowFrom (s.v y).toNat r)).getLsbD (7 - colFrom (s.v x).toNat c))
  unfold covers
  generalize rowFrom (s.v y).toNat r = k
  by_cases hk : k < n.toNat
  · have hlen : k < (readBytes s s.I.toNat n.toNat).length := by rw [readBytes_length]; exact hk
    rw [Nat.sub_zero, List.getD_eq_getElem?_getD, List.getElem?_eq_getElem hlen, Option.getD_some, readBytes_getElem]
    simp [hk]
  · have hlen : (readBytes s s.I.toNat n.toNat).length ≤ k := by rw [readBytes_length]; omega
    rw [Nat.sub_zero, List.getD_eq_getElem?_getD, List.getElem?_eq_none hlen, Option.getD_none]
    simp [hk]

theorem flips_drawOf (s : State) (x y : Reg) (n : BitVec 4) :
    Flips ⟨s.disp, false⟩ (drawOf s x y n) (spriteCovers s x y n) :=
  (flips_drawRows _ _ _ 0 _ (by rw [readBytes_length]; have := n.isLt; omega)).congr (covers_readBytes s x y n)

/-- The state after a draw. -/
def State.drawn (s : State) (x y : Reg) (n : BitVec 4) : State :=
  ((s.setDisp (drawOf s x y n).disp).setV VF (flagByte (drawOf s x y n).collision)).advance

variable {s : State} {x y : Reg} {n : BitVec 4}

theorem exec_drw (h : n = 0 ∨ s.I.toNat + n.toNat - 1 ≤ 0xFFF) : exec (.drw x y n) s = .next (s.drawn x y n) :=
  exec_of_valid (rangeFault_none (h.imp_left fun h0 => by rw [h0]; rfl))

theorem drawn_pixel (r : Fin 32) (c : Fin 64) :
    pixel (s.drawn x y n).disp r c = (pixel s.disp r c != spriteCovers s x y n r c) :=
  (flips_drawOf s x y n).pixel_eq r c

theorem drawn_VF : (s.drawn x y n).v VF = flagByte (drawOf s x y n).collision := by simp [State.drawn]

theorem drawOf_collision_iff : (drawOf s x y n).collision = true ↔
    ∃ r c, pixel s.disp r c = true ∧ spriteCovers s x y n r c = true := by
  simpa using (flips_drawOf s x y n).collision_iff

theorem drawn_VF_eq_one_iff : (s.drawn x y n).v VF = 1 ↔
    ∃ r c, pixel s.disp r c = true ∧ spriteCovers s x y n r c = true := by
  rw [drawn_VF, ← drawOf_collision_iff]
  cases (drawOf s x y n).collision <;> decide

/-- A cell goes from 1 to 0 exactly when it was 1 and a 1 bit of the sprite falls on it. -/
theorem drawn_erased_iff (r : Fin 32) (c : Fin 64) :
    (pixel s.disp r c = true ∧ pixel (s.drawn x y n).disp r c = false) ↔
      pixel s.disp r c = true ∧ spriteCovers s x y n r c = true := by
  rw [drawn_pixel]
  cases pixel s.disp r c <;> cases spriteCovers s x y n r c <;> simp

/-- Settles O46: the draw flips the covered cells, and VF is the collision recorded on the way. -/
theorem drawIsXorWithCollision : Obligations.DrawIsXorWithCollision := by
  refine fun s x y n h => ⟨s.drawn x y n, exec_drw h, rfl, drawn_pixel, ?_, changesOnly_draw s _ _⟩
  simp only [drawn_erased_iff, drawn_VF, ← not_exists, ← drawOf_collision_iff]
  cases (drawOf s x y n).collision
  · exact .inr ⟨rfl, Bool.false_ne_true⟩
  · exact .inl ⟨rfl, rfl⟩

/-- Settles O47: the second draw covers the same cells, so it flips each back, and it erases what the first one drew. -/
theorem drawingTwiceRestoresTheDisplay : Obligations.DrawingTwiceRestoresTheDisplay := by
  intro s t x y n h ht hx hy
  rw [exec_drw h] at ht
  cases ht
  have hcov (r c) : spriteCovers (s.drawn x y n) x y n r c = spriteCovers s x y n r c := by
    unfold spriteCovers
    rw [hx, hy]; rfl
  refine ⟨_, exec_drw (s := s.drawn x y n) h, fun r c => ?_, ?_⟩
  · rw [drawn_pixel, hcov, drawn_pixel]
    cases pixel s.disp r c <;> cases spriteCovers s x y n r c <;> rfl
  · rw [drawn_VF_eq_one_iff]
    refine exists_congr fun r => exists_congr fun c => ?_
    rw [hcov, drawn_pixel]
    cases pixel s.disp r c <;> cases spriteCovers s x y n r c <;> simp

end Sys2Proof.Machine
end

section
/-! The reference schedule: over INSTR_HZ + 60 steps the accumulator comes back to 0 after exactly 60 ticks (60_exceptions.md
R183, R185). -/

namespace Sys2Proof.Machine

/-! ### A tick and a cycle leave the environment and the parameters alone -/

theorem instructionCycle_changesOnly {keys : Keys} {rand : Byte} {s t : State} (h : instructionCycle keys rand s = .next t) :
    ChangesOnly (fun c => c ≠ .environment ∧ c ≠ .config) s t := by
  have hsample := (changesOnly_sample s keys rand).mono (Q := fun c => c ≠ .environment ∧ c ≠ .config)
    (by rintro c (rfl | rfl) <;> simp)
  have hraise (c : FaultCause) : ChangesOnly (fun c => c ≠ .environment ∧ c ≠ .config) (s.sample keys rand)
      ((s.sample keys rand).faulted c) := (raised_faulted c _).2.2.2.mono (by rintro c rfl; simp)
  obtain ⟨-, rfl⟩ | ⟨-, ⟨c, -, hc⟩ | ⟨w, i, -, -, hi⟩ | ⟨w, -, -, -, hc⟩ | ⟨w, -, -, -, rfl⟩⟩ := instructionCycle_cases h
  · exact .refl _ _
  · cases hc; exact hsample.trans (hraise c)
  · refine hsample.trans ((exec_changesOnly hi).mono ?_)
    rintro c (hc | rfl)
    · exact ⟨fun h => by subst h; exact hc, fun h => by subst h; exact hc⟩
    · simp
  · cases hc; exact hsample.trans (hraise _)
  · exact hsample.trans ((changesOnly_setPC _ _).mono (by rintro c rfl; simp))

theorem timerTick_changesOnly {s t : State} (h : timerTick s = .next t) : ChangesOnly (fun c => c = .dt ∨ c = .st) s t := by
  obtain ⟨-, rfl⟩ | ⟨-, rfl⟩ := timerTick_cases h
  · exact .refl _ _
  · exact changesOnly_ticked s

/-! ### One step beyond the list -/

theorem nextEvent_tick {s : State} (hin : s.inputs = []) (h : s.cfg.instrHz ≤ s.tickAcc) : nextEvent s = .timerClk := by
  simp [nextEvent, hin, h]

theorem nextEvent_cycle {s : State} (hin : s.inputs = []) (h : ¬ s.cfg.instrHz ≤ s.tickAcc) :
    nextEvent s = .instrClk (freeKeys s.drawIndex) (freeRand s.drawIndex) := by
  simp [nextEvent, hin, h]

theorem consumeEvent_tick {s : State} (hin : s.inputs = []) (h : s.cfg.instrHz ≤ s.tickAcc) :
    consumeEvent s = { s with tickAcc := s.tickAcc - s.cfg.instrHz } := by
  simp [consumeEvent, hin, h]

theorem consumeEvent_cycle {s : State} (hin : s.inputs = []) (h : ¬ s.cfg.instrHz ≤ s.tickAcc) :
    consumeEvent s = { s with tickAcc := s.tickAcc + 60, drawIndex := s.drawIndex + 1 } := by
  simp [consumeEvent, hin, h, timerHz]

/-- What one step of the reference schedule is: a tick of both timers unless halted, or an instruction cycle. -/
def ScheduledStep (s t : State) : Prop :=
  (nextEvent s = .timerClk ∧
    (if s.halted then ChangesOnly (· = .environment) s t
    else t.DT.toNat = s.DT.toNat - 1 ∧ t.ST.toNat = s.ST.toNat - 1 ∧
      ChangesOnly (fun c => c = .dt ∨ c = .st ∨ c = .environment) s t)) ∨
  ∃ keys rand, nextEvent s = .instrClk keys rand ∧ instructionCycle keys rand (consumeEvent s) = .next t

theorem scheduledStep_of_tick {s t : State} (he : nextEvent s = .timerClk) (ht : step s = .next t) : ScheduledStep s t := by
  rw [step_timerClk he] at ht
  refine .inl ⟨he, ?_⟩
  obtain ⟨hs, rfl⟩ | ⟨hs, rfl⟩ := timerTick_cases ht
  · rw [consumeEvent_halted] at hs
    rw [if_pos hs]
    exact changesOnly_consumeEvent s
  · rw [consumeEvent_halted] at hs
    rw [if_neg (by simp [hs])]
    refine ⟨by simp [countDown_toNat], by simp [countDown_toNat], ?_⟩
    exact ((changesOnly_consumeEvent s).mono fun _ h => .inr (.inr h)).trans
      ((changesOnly_ticked _).mono fun _ h => h.imp_right .inl)

/-- After `ticks` ticks and `cycles` cycles from `s`, with the accumulator at 0 in `s`, the machine is in `u`. -/
structure OnSchedule (s : State) (ticks cycles : Nat) (u : State) : Prop where
  inputs : u.inputs = []
  cfg : u.cfg = s.cfg
  bound : u.tickAcc < s.cfg.instrHz + 60
  balance : u.tickAcc + s.cfg.instrHz * ticks = 60 * cycles
  draws : u.drawIndex = s.drawIndex + cycles

variable {s u t : State} {ticks cycles : Nat}

theorem OnSchedule.tick (h : OnSchedule s ticks cycles u) (hacc : u.cfg.instrHz ≤ u.tickAcc) (ht : step u = .next t) :
    OnSchedule s (ticks + 1) cycles t := by
  rw [step_timerClk (nextEvent_tick h.inputs hacc), consumeEvent_tick h.inputs hacc] at ht
  have hframe := timerTick_changesOnly ht
  obtain ⟨hin, htick, hdraw⟩ := (hframe .environment).resolve_left (by simp)
  have hcfg : t.cfg = u.cfg := (hframe .config).resolve_left (by simp)
  rw [h.cfg] at hacc
  simp only [h.cfg] at htick
  have := h.bound
  have := h.balance
  refine ⟨hin.trans h.inputs, hcfg.trans h.cfg, ?_, ?_, hdraw.trans h.draws⟩
  · rw [htick]; omega
  · rw [htick, Nat.mul_succ]; omega

theorem OnSchedule.cycle (h : OnSchedule s ticks cycles u) (hacc : ¬ u.cfg.instrHz ≤ u.tickAcc) (ht : step u = .next t) :
    OnSchedule s ticks (cycles + 1) t := by
  rw [step_instrClk (nextEvent_cycle h.inputs hacc), consumeEvent_cycle h.inputs hacc] at ht
  have hframe := instructionCycle_changesOnly ht
  obtain ⟨hin, htick, hdraw⟩ := (hframe .environment).resolve_left (by simp)
  have hcfg : t.cfg = u.cfg := (hframe .config).resolve_left (by simp)
  rw [h.cfg] at hacc
  have := h.balance
  refine ⟨hin.trans h.inputs, hcfg.trans h.cfg, ?_, ?_, ?_⟩
  · rw [htick]; simp only; omega
  · rw [htick]; simp only; omega
  · rw [hdraw]; simp only [h.draws]; omega

/-- Both kinds of step add up: the accumulator is a multiple of INSTR_HZ + 60 below it, so it is 0. -/
theorem OnSchedule.complete (h : OnSchedule s ticks cycles u) (hsum : ticks + cycles = s.cfg.instrHz + 60) :
    ticks = 60 ∧ cycles = s.cfg.instrHz ∧ u.tickAcc = 0 := by
  have hbound := h.bound
  have hbalance := h.balance
  have htotal : u.tickAcc + (s.cfg.instrHz + 60) * ticks = (s.cfg.instrHz + 60) * 60 := by
    rw [Nat.add_mul]; omega
  obtain hlt | heq | hgt := Nat.lt_trichotomy ticks 60
  · have := Nat.mul_le_mul_left (s.cfg.instrHz + 60) (show ticks ≤ 59 by omega)
    omega
  · rw [heq] at htotal; omega
  · have := Nat.mul_le_mul_left (s.cfg.instrHz + 60) (show 61 ≤ ticks by omega)
    omega

/-! ### The trace -/

/-- The state a step leads to. -/
def stepNext (s : State) : State :=
  match step s with
  | .next t => t
  | .fault _ | .refused _ => s

theorem step_stepNext (s : State) : step s = .next (stepNext s) := by
  obtain ⟨t, h⟩ := everyStepAnswersANextState s
  rw [stepNext, h]

/-- The state after `j` steps. -/
def traceFrom (s : State) : Nat → State
  | 0 => s
  | j + 1 => stepNext (traceFrom s j)

theorem step_traceFrom (s : State) (j : Nat) : step (traceFrom s j) = .next (traceFrom s (j + 1)) :=
  step_stepNext (traceFrom s j)

/-- How many of the first `j` steps are ticks. -/
def ticksBefore (s : State) (j : Nat) : Nat :=
  (List.range j).countP fun j => nextEvent (traceFrom s j) = .timerClk

/-- How many of the first `j` steps are not. -/
def cyclesBefore (s : State) (j : Nat) : Nat :=
  (List.range j).countP fun j => nextEvent (traceFrom s j) ≠ .timerClk

theorem ticksBefore_succ (s : State) (j : Nat) :
    ticksBefore s (j + 1) = ticksBefore s j + if nextEvent (traceFrom s j) = .timerClk then 1 else 0 := by
  simp [ticksBefore, List.range_succ, List.countP_append]

theorem cyclesBefore_succ (s : State) (j : Nat) :
    cyclesBefore s (j + 1) = cyclesBefore s j + if nextEvent (traceFrom s j) = .timerClk then 0 else 1 := by
  simp only [cyclesBefore, List.range_succ, List.countP_append, List.countP_singleton, decide_eq_true_eq, ne_eq, ite_not]

theorem ticksBefore_add_cyclesBefore (s : State) (j : Nat) : ticksBefore s j + cyclesBefore s j = j := by
  induction j with
  | zero => rfl
  | succ j ih => rw [ticksBefore_succ, cyclesBefore_succ]; split <;> omega

theorem onSchedule_traceFrom (hin : s.inputs = []) (hacc : s.tickAcc = 0) (j : Nat) :
    OnSchedule s (ticksBefore s j) (cyclesBefore s j) (traceFrom s j) := by
  induction j with
  | zero => exact ⟨hin, rfl, by show s.tickAcc < _; omega, hacc, rfl⟩
  | succ j ih =>
    rw [ticksBefore_succ, cyclesBefore_succ]
    by_cases h : (traceFrom s j).cfg.instrHz ≤ (traceFrom s j).tickAcc
    · rw [nextEvent_tick ih.inputs h]
      exact ih.tick h (step_traceFrom s j)
    · rw [nextEvent_cycle ih.inputs h]
      exact ih.cycle h (step_traceFrom s j)

theorem OnSchedule.scheduledStep (h : OnSchedule s ticks cycles u) (ht : step u = .next t) : ScheduledStep u t := by
  by_cases hacc : u.cfg.instrHz ≤ u.tickAcc
  · exact scheduledStep_of_tick (nextEvent_tick h.inputs hacc) ht
  · have he := nextEvent_cycle h.inputs hacc
    exact .inr ⟨_, _, he, (step_instrClk he).symm.trans ht⟩

/-- Settles O56: each step keeps the balance of ticks against cycles, which after INSTR_HZ + 60 steps has one solution. -/
theorem referenceScheduleTicksSixtyTimes : Obligations.ReferenceScheduleTicksSixtyTimes := by
  intro s _ hin hacc
  have hsched := onSchedule_traceFrom hin hacc
  obtain ⟨hticks, hcycles, hzero⟩ := (hsched _).complete (ticksBefore_add_cyclesBefore s (s.cfg.instrHz + 60))
  refine ⟨traceFrom s, rfl, fun j _ => ⟨step_traceFrom s j, (hsched j).scheduledStep (step_traceFrom s j)⟩, hticks, hcycles,
    (hsched _).inputs, hzero, ?_⟩
  rw [(hsched _).draws, hcycles]

end Sys2Proof.Machine
end
